-- ==== Sys2Proof/Config.lean ====
section
/-! DEFINITION. The implementation parameters of 00_scope.md R6. The fixed ones are numbers. `PROG` (with its
length `PROG_LEN`) is an argument of the machine and stands in `State.prog` (log entries 1 and 3). `IP_W` is no
number either: the architectural machine has a natural number for `ip`, and `Config.ipWidthFits` is the premise
under which a register of that width behaves as the natural number does (92_eei_decisions.md D4, log entry 5).
There is no free value: 93_implementation_defined.md leaves none. -/

namespace Sys2Proof

/-- `NREG`: the general registers, indexed 0, 1 and 2 (R6). -/
abbrev Config.nreg : Nat := 3

/-- `XLEN`: the width of a register (R6). -/
abbrev Config.xlen : Nat := 16

/-- `ILEN`: the width of an instruction, one word (R6). -/
abbrev Config.ilen : Nat := 16

/-- `REGFIELD`: the width of a register-index field (R6). -/
abbrev Config.regField : Nat := 4

/-- `IMMLEN`: the width of the immediate (R6). -/
abbrev Config.immLen : Nat := 8

/-- The entry point: word index 0 (20_memory.md R46). -/
abbrev Config.entryPoint : Nat := 0

/-- The constraint on the open parameter `IP_W` for a program of `progLen` words: `PROG_LEN <= 2^IP_W - 1` (R6). -/
abbrev Config.ipWidthFits (ipW progLen : Nat) : Prop := progLen ≤ 2 ^ ipW - 1

end Sys2Proof
end

