-- ==== Sys2Proof/Syntax.lean ====
section
/-! DEFINITION. The five instructions (00_scope.md R2), one constructor per row of spec/opcode_table.json. An operand
is the unsigned integer its field holds (00_scope.md R8; 30_encoding.md R51, R56); WellFormed.lean says which
integers a field can hold (log entry 16). A register field is NOT checked against the register file here: an index
of 3 to 15 is a proper instruction that faults when it executes (30_encoding.md R52). -/

namespace Sys2Proof

/-- A decoded instruction (30_encoding.md R53). -/
inductive Instr where
  /-- `Halt` (41_control.md R86). -/
  | halt
  /-- `Load d v`: `d` the destination's index, `v` the value (40_dataops.md R61). -/
  | load (d v : Nat)
  /-- `Swap d s t`: the indices of destination, source and temp (40_dataops.md R62). -/
  | swap (d s t : Nat)
  /-- `Mod a b c`: the indices of dividend, divisor and destination (40_dataops.md R63). -/
  | mod (a b c : Nat)
  /-- `BEZ r o`: `r` the tested register's index, `o` the backward offset (41_control.md R83). -/
  | bez (r o : Nat)
deriving DecidableEq, Repr

/-- The register fields an instruction uses, in field order: those whose index is checked at execute
(10_state.md R22; 40_dataops.md R60; 41_control.md R83). `Halt` uses none. -/
def Instr.regFields : Instr → List Nat
  | .halt => []
  | .load d _ => [d]
  | .swap d s t => [d, s, t]
  | .mod a b c => [a, b, c]
  | .bez r _ => [r]

/-- The indices of the registers whose values before the instruction it reads (10_state.md R23): `Halt` reads
`x[0]` as the output, and `Swap` reads `x[t]` only after writing it. -/
def Instr.reads : Instr → List Nat
  | .halt => [0]
  | .load _ _ => []
  | .swap d s _ => [d, s]
  | .mod a b _ => [a, b]
  | .bez r _ => [r]

/-- The indices of the registers an instruction writes (10_state.md R23). -/
def Instr.writes : Instr → List Nat
  | .halt => []
  | .load d _ => [d]
  | .swap d s t => [t, s, d]
  | .mod _ _ c => [c]
  | .bez _ _ => []

end Sys2Proof
end

