-- ==== Sys2Proof/WellFormed.lean ====
section
/-! DEFINITION. Which instructions a word can hold: every register field below 16, every immediate below 256
(30_encoding.md R56: "d < 16, v < 256", "each < 16", "r < 16, o < 256"). -/

namespace Sys2Proof

/-- The integer fits a register-index field of `REGFIELD` bits (00_scope.md R6). -/
def fitsRegField (n : Nat) : Bool := decide (n < 2 ^ Config.regField)

/-- The integer fits an immediate of `IMMLEN` bits (00_scope.md R6). -/
def fitsImm8 (n : Nat) : Bool := decide (n < 2 ^ Config.immLen)

/-- The instruction has an encoding: the side conditions of 30_encoding.md R56. -/
def Instr.wellFormed : Instr → Bool
  | .halt => true
  | .load d v => fitsRegField d && fitsImm8 v
  | .swap d s t => fitsRegField d && fitsRegField s && fitsRegField t
  | .mod a b c => fitsRegField a && fitsRegField b && fitsRegField c
  | .bez r o => fitsRegField r && fitsImm8 o

end Sys2Proof
end

