-- ==== Sys2Proof/Word.lean ====
section
/-! DEFINITION. The word of VM16 and the opcode nibble (00_scope.md R6: `XLEN` = `ILEN` = 16, an opcode of 4 bits). -/

namespace Sys2Proof

/-- A register value or an instruction word: 16 bits, unsigned (00_scope.md R6, R8). -/
abbrev Word := BitVec 16

/-- The opcode nibble `w[15:12]` (30_encoding.md R50). -/
abbrev Nibble := BitVec 4

end Sys2Proof
end

