-- ==== Sys2Proof/Decode.lean ====
section
/-! DEFINITION. The decoder, total on every word and rejecting by the opcode nibble (30_encoding.md R50 to R54), the
encoder (R56), and the written form of an instruction (R57). -/

namespace Sys2Proof

/-- The fields the decoder extracts from every word, whatever its opcode (30_encoding.md R50). -/
structure Fields where
  op   : Nibble
  f1   : Nat
  f2   : Nat
  f3   : Nat
  imm8 : Nat
deriving DecidableEq, Repr

/-- The field of `len` bits whose lowest bit is bit `lo`, as an unsigned integer: `w[lo+len-1 : lo]` (00_scope.md R7). -/
def field (w : Word) (lo len : Nat) : Nat := (w.extractLsb' lo len).toNat

/-- `op = w[15:12]` (30_encoding.md R50). -/
def opcode (w : Word) : Nibble := w.extractLsb' 12 4

/-- The bit-field extractor (30_encoding.md R50): `f1 = w[11:8]`, `f2 = w[7:4]`, `f3 = w[3:0]`, `imm8 = w[7:0]`. -/
def fields (w : Word) : Fields where
  op   := opcode w
  f1   := field w 8 4
  f2   := field w 4 4
  f3   := field w 0 4
  imm8 := field w 0 8

/-- What the decoder answers: an instruction, or `bad_opcode` naming the nibble it does not recognize
(10_state.md R32; 30_encoding.md R53). -/
inductive Decoded where
  | instr (i : Instr)
  | badOpcode (op : Nibble)
deriving DecidableEq, Repr

/-- The dispatch on `op` (30_encoding.md R53). No register index is checked here (R52), and `Halt` ignores its
other fields (R55). -/
def dispatchFields (x : Fields) : Decoded :=
  match x.op.toNat with
  | 0 => .instr .halt
  | 1 => .instr (.load x.f1 x.imm8)
  | 2 => .instr (.swap x.f1 x.f2 x.f3)
  | 3 => .instr (.mod x.f1 x.f2 x.f3)
  | 4 => .instr (.bez x.f1 x.imm8)
  | _ => .badOpcode x.op

/-- Decode: a pure, total function of the word (30_encoding.md R52, R53). -/
def decode (w : Word) : Decoded := dispatchFields (fields w)

/-- The instruction, where the decoder answers one. -/
def Decoded.instr? : Decoded → Option Instr
  | .instr i => some i
  | .badOpcode _ => none

/-- Place an operand's integer in a word, its bit 0 at bit `lo`. -/
def placeAt (n lo : Nat) : Word := BitVec.ofNat Config.ilen n <<< lo

/-- Encode: the word of a well-formed instruction, as 30_encoding.md R56 writes it. -/
def encode : Instr → Word
  | .halt => 0x0000#16
  | .load d v => 0x1000#16 ||| placeAt d 8 ||| placeAt v 0
  | .swap d s t => 0x2000#16 ||| placeAt d 8 ||| placeAt s 4 ||| placeAt t 0
  | .mod a b c => 0x3000#16 ||| placeAt a 8 ||| placeAt b 4 ||| placeAt c 0
  | .bez r o => 0x4000#16 ||| placeAt r 8 ||| placeAt o 0

/-- The opcode number of an instruction (30_encoding.md R54). -/
def Instr.opcodeNumber : Instr → Nat
  | .halt => 0
  | .load _ _ => 1
  | .swap _ _ _ => 2
  | .mod _ _ _ => 3
  | .bez _ _ => 4

/-- The written form: the mnemonic, then every field in decimal, in field order (30_encoding.md R57, 92_eei_decisions.md D12). -/
def Instr.render : Instr → String
  | .halt => "Halt"
  | .load d v => "Load " ++ toString d ++ " " ++ toString v
  | .swap d s t => "Swap " ++ toString d ++ " " ++ toString s ++ " " ++ toString t
  | .mod a b c => "Mod " ++ toString a ++ " " ++ toString b ++ " " ++ toString c
  | .bez r o => "BEZ " ++ toString r ++ " " ++ toString o

/-- The one word of an instruction given as a number of `nbits` bits; every bit above them is 0. An instruction is
exactly one word (30_encoding.md R50), so bits 16 and up belong to no part of it (log entry 18). -/
def tableWord (nbits w : Nat) : Word := BitVec.ofNat Config.ilen (w % 2 ^ nbits)

/-- What the decoder reads from a row of spec/opcode_table.json, numbered as the table numbers its bits. -/
def decodeTableWord (nbits w : Nat) : Option Instr := (decode (tableWord nbits w)).instr?

end Sys2Proof
end

