-- ==== Sys2Proof/Machine/State.lean ====
section
/-! DEFINITION. The state of one VM16 (10_state.md R20): three registers, ip, the run status, the fault record, and the
program the host supplied. Plain data throughout. -/

namespace Sys2Proof.Machine

/-- The three registers by name: an index of 0, 1 or 2 (10_state.md R21, R22). -/
inductive Reg where
  | x0 | x1 | x2
deriving DecidableEq, Repr

/-- The register file: exactly three 16-bit slots, none hardwired (10_state.md R21). -/
structure RegFile where
  x0 : Word
  x1 : Word
  x2 : Word
deriving DecidableEq, Repr

/-- The five fault kinds (60_exceptions.md R90). -/
inductive FaultKind where
  /-- Cycle step 1: `ip >= PROG_LEN` (20_memory.md R42). -/
  | fetchOutOfBounds
  /-- Cycle step 2: an opcode nibble of 5 to 15 (30_encoding.md R53). -/
  | decodeError
  /-- Cycle step 3: a register field the instruction uses is above 2 (40_dataops.md R60; 41_control.md R83). -/
  | registerOutOfRange
  /-- Cycle step 3, `Mod`: the divisor is 0 (40_dataops.md R63). -/
  | divisionByZero
  /-- Cycle step 3, `BEZ`: taken, and the offset exceeds ip (41_control.md R83). -/
  | ipUnderflow
deriving DecidableEq, Repr

/-- The three fault categories of the source's run loop (60_exceptions.md R91). -/
inductive FaultCategory where
  | fetchError | decodeError | execError
deriving DecidableEq, Repr

/-- The run status (10_state.md R26). -/
inductive RunStatus where
  | running
  | halted
  | faulted (kind : FaultKind)
deriving DecidableEq, Repr

/-- The fault record (10_state.md R27): the kind, the ip of the faulting cycle, and the opcode nibble for
`DecodeError` only (log entry 13). -/
structure FaultRecord where
  kind    : FaultKind
  fip     : Nat
  fopcode : Option Nibble
deriving DecidableEq, Repr

/-- The state (10_state.md R20). `prog` is `PROG`, the fixed argument of the machine: no operation of the machine
writes it (20_memory.md R41; log entries 1 and 2). Its length is `PROG_LEN`. -/
structure State where
  regs   : RegFile
  ip     : Nat
  status : RunStatus
  fault  : Option FaultRecord
  prog   : List Word
deriving DecidableEq, Repr

/-- Why a step could stop WITHOUT a next state: never. Every fault of the spec is a state of the machine
(`RunStatus.faulted`, 60_exceptions.md R92, R95), which a step reaches as a next state, and a step of a machine that
is not running does nothing (10_state.md R31). So nobody raises one of these, and the type has no value; that is safe,
since no behaviour is cut off (log entries 6 and 7). -/
inductive Fault where
deriving DecidableEq, Repr

/-- Why a step could have no meaning. -/
inductive Refusal where
  /-- An instruction without a meaning yet, named by its mnemonic. Raised only by an arm of `exec` that has none: every
  arm has one, so no step raises it (safe). -/
  | notModelled (mnemonic : String)
deriving DecidableEq, Repr

/-- The machine right after reset (10_state.md R30; 70_reset_and_hazards.md R110), over the program of no words: the
program is the host's argument, supplied at construction (`State.newVm`; log entry 3). -/
def State.reset : State where
  regs   := { x0 := 0#16, x1 := 0#16, x2 := 0#16 }
  ip     := Config.entryPoint
  status := .running
  fault  := none
  prog   := []

end Sys2Proof.Machine
end

