-- ==== Sys2Proof/Machine/Ops.lean ====
section
/-! DEFINITION. The named operations over the state: registers, program fetch, taking a fault, ending a cycle, reset and
observation. -/

namespace Sys2Proof.Machine

/-! ### Registers (10_state.md R21, R22) -/

/-- The index an instruction names the register by. -/
def Reg.index : Reg → Nat
  | .x0 => 0
  | .x1 => 1
  | .x2 => 2

/-- The register an index names: only 0, 1 and 2 name one (10_state.md R22). -/
def Reg.ofIndex : Nat → Option Reg
  | 0 => some .x0
  | 1 => some .x1
  | 2 => some .x2
  | _ => none

/-- The value of a register. -/
def RegFile.get (rf : RegFile) : Reg → Word
  | .x0 => rf.x0
  | .x1 => rf.x1
  | .x2 => rf.x2

/-- Set a register, leaving the other two. -/
def RegFile.set (rf : RegFile) (r : Reg) (v : Word) : RegFile :=
  match r with
  | .x0 => { rf with x0 := v }
  | .x1 => { rf with x1 := v }
  | .x2 => { rf with x2 := v }

/-- `read(index)`: "fails with `RegisterOutOfRange` if index > 2" (10_state.md R22). -/
def RegFile.read (rf : RegFile) (index : Nat) : Except FaultKind Word :=
  match Reg.ofIndex index with
  | some r => .ok (rf.get r)
  | none => .error .registerOutOfRange

/-- `write(index, value)`: the "same bound check" (10_state.md R22). -/
def RegFile.write (rf : RegFile) (index : Nat) (v : Word) : Except FaultKind RegFile :=
  match Reg.ofIndex index with
  | some r => .ok (rf.set r v)
  | none => .error .registerOutOfRange

/-- `x[i]` of a state (00_scope.md R9). -/
def State.reg (s : State) (r : Reg) : Word := s.regs.get r

/-- `x[i] <- v` (00_scope.md R9). -/
def State.setReg (s : State) (r : Reg) (v : Word) : State := { s with regs := s.regs.set r v }

/-- `ip <- v` (00_scope.md R9). -/
def State.setIp (s : State) (v : Nat) : State := { s with ip := v }

/-! ### The remainder unit, the only data operation (40_dataops.md R63, R64) -/

/-- The 16-bit unsigned remainder, or `DivisionByZero` when the divisor is 0 (10_state.md R32; log entry 22). -/
def remUnit (dividend divisor : Word) : Except FaultKind Word :=
  if divisor = 0#16 then .error .divisionByZero else .ok (dividend % divisor)

/-! ### Program fetch (20_memory.md R42) -/

/-- `Fetch(a)`: the word at an index of the program; none when the index is at or above `PROG_LEN`. It is the only read
of the only address space (20_memory.md R40, R44, R45), and there is no write. -/
def fetch (prog : List Word) (a : Nat) : Option Word := prog[a]?

/-- Put a word at an index of a program, for the host that supplies it: words between the program's end and the index
become `Halt` (0x0000; log entry 4). No instruction and no step calls this. -/
def placeWord : List Word → Nat → Word → List Word
  | [], 0, w => [w]
  | [], a + 1, w => 0x0000#16 :: placeWord [] a w
  | _ :: rest, 0, w => w :: rest
  | v :: rest, a + 1, w => v :: placeWord rest a w

/-! ### Taking a fault (60_exceptions.md R92, R95) -/

/-- `raise Fault(kind, fip, fopcode?)` at the start-of-cycle state: the status becomes `Faulted(kind)`, the record holds
the kind, this cycle's ip and, for `DecodeError`, the nibble; `x[0..2]` and ip keep their values (log entries 6, 10, 13).
There is no return from it: the only exit is `State.assertReset` below (R95). -/
def State.raise (s : State) (kind : FaultKind) (fopcode : Option Nibble) : State :=
  { s with status := .faulted kind, fault := some { kind := kind, fip := s.ip, fopcode := fopcode } }

/-- The category a kind belongs to (60_exceptions.md R91). -/
def FaultKind.category : FaultKind → FaultCategory
  | .fetchOutOfBounds => .fetchError
  | .decodeError => .decodeError
  | .registerOutOfRange => .execError
  | .divisionByZero => .execError
  | .ipUnderflow => .execError

/-- The code of a kind (60_exceptions.md R90; 92_eei_decisions.md D13; log entry 14). -/
def FaultKind.code : FaultKind → Nat
  | .fetchOutOfBounds => 1
  | .decodeError => 2
  | .registerOutOfRange => 3
  | .divisionByZero => 4
  | .ipUnderflow => 5

/-- The code of a status output (10_state.md R26; 92_eei_decisions.md D13; log entry 14). -/
def RunStatus.code : RunStatus → Nat
  | .running => 0
  | .halted => 1
  | .faulted _ => 2

/-! ### The cycle (41_control.md R80) -/

/-- The result of executing one instruction (41_control.md R80): `proceed` is the source's `Continue`. -/
inductive ControlSignal where
  | proceed
  | halt
deriving DecidableEq, Repr

/-- What cycle step 3 hands on: a ControlSignal with the state the instruction left, or a fault it raised. -/
inductive Executed where
  | done (sig : ControlSignal) (s : State)
  | raised (kind : FaultKind)
deriving DecidableEq, Repr

/-- Cycle steps 4 and 5 after step 3, for the cycle that began in `s` (41_control.md R80, R81, R82): a raise ends the cycle
with the registers and ip of `s`; Halt stops the machine and does not advance ip; Continue adds 1 to ip. -/
def finishCycle (s : State) : Executed → Host.Outcome State Fault Refusal
  | .raised kind => .next (s.raise kind none)
  | .done .halt t => .next { t with status := .halted }
  | .done .proceed t => .next (t.setIp (t.ip + 1))

/-- Cycle steps 1 and 2: the instruction at ip, or the fault fetch or decode raises with the opcode nibble a decode fault
records (41_control.md R80; 20_memory.md R42; 30_encoding.md R53). -/
def fetchDecode (s : State) : Except (FaultKind × Option Nibble) Instr :=
  match fetch s.prog s.ip with
  | none => .error (.fetchOutOfBounds, none)
  | some w =>
    match decode w with
    | .instr i => .ok i
    | .badOpcode op => .error (.decodeError, some op)

/-! ### Reset and observation (10_state.md R30, R31; 70_reset_and_hazards.md R110) -/

/-- `new_vm(PROG)`: the state of 10_state.md R30 over the supplied program. -/
def State.newVm (prog : List Word) : State := { State.reset with prog := prog }

/-- The reset input: in any state, the state of 10_state.md R30 with the same program (70_reset_and_hazards.md R110, R111;
log entry 15). -/
def State.assertReset (s : State) : State := State.newVm s.prog

/-- `result`: `x[0]` when `Halted` (10_state.md R31; 41_control.md R86). -/
def State.result (s : State) : Option Word :=
  match s.status with
  | .halted => some (s.reg .x0)
  | .running => none
  | .faulted _ => none

/-- What the host observes (10_state.md R31): the status, the fault record when `Faulted`, `result` when `Halted`. -/
structure Observation where
  status : RunStatus
  fault  : Option FaultRecord
  result : Option Word
deriving DecidableEq, Repr

/-- `observe` (10_state.md R31). -/
def State.observe (s : State) : Observation where
  status := s.status
  fault  := match s.status with
    | .faulted _ => s.fault
    | .running => none
    | .halted => none
  result := s.result

end Sys2Proof.Machine
end

