-- ==== Sys2Proof/Machine/Flags.lean ====
section
/-! DEFINITION. VM16 has no flags, condition codes or predicates (10_state.md R28). What stands here is the one condition
a program can test, BEZ's (41_control.md R83), which reads a register directly. -/

namespace Sys2Proof.Machine

/-- BEZ's take decision: the register's value is 0 (41_control.md R83). -/
def branchTaken (v : Word) : Bool := decide (v = 0#16)

/-- A taken branch would go before the program's start: the offset exceeds ip, before the normal +1 (41_control.md R83;
92_eei_decisions.md D9; log entry 11). -/
def branchUnderflows (ip offset : Nat) : Bool := decide (ip < offset)

end Sys2Proof.Machine
end

