-- ==== Sys2Proof/Machine/Operands.lean ====
section
/-! DEFINITION. Every operand form: register fields, resolved all together before anything is written
(40_dataops.md R60), and the zero-extended immediate (30_encoding.md R51). -/

namespace Sys2Proof.Machine

/-- `zext_16(v)` (00_scope.md R8; 30_encoding.md R51). -/
def zext16 (v : Nat) : Word := BitVec.ofNat Config.xlen v

/-- The three registers a `Swap` or a `Mod` names, or none when any of the three fields is above 2: the check covers
every field before the first read or write (40_dataops.md R60, R62, R63; log entries 9 and 10). -/
def Reg.ofIndices (f1 f2 f3 : Nat) : Option (Reg × Reg × Reg) :=
  match Reg.ofIndex f1 with
  | none => none
  | some r1 =>
    match Reg.ofIndex f2 with
    | none => none
    | some r2 =>
      match Reg.ofIndex f3 with
      | none => none
      | some r3 => some (r1, r2, r3)

end Sys2Proof.Machine
end

