-- ==== Sys2Proof/Machine/Control.lean ====
section
/-! DEFINITION. The control-flow instructions BEZ and Halt (41_control.md). -/

namespace Sys2Proof.Machine

/-- `BEZ r o` (41_control.md R83): taken when `x[r] = 0`, and then `ip <- ip - o` unless that would go before the
program's start; the normal +1 of cycle step 5 follows either way. -/
def execBez (r o : Nat) (s : State) : Host.Outcome State Fault Refusal :=
  finishCycle s <|
    match Reg.ofIndex r with
    | none => .raised .registerOutOfRange
    | some rr =>
      match branchTaken (s.reg rr) with
      | false => .done .proceed s
      | true =>
        match branchUnderflows s.ip o with
        | true => .raised .ipUnderflow
        | false => .done .proceed (s.setIp (s.ip - o))

/-- `Halt` (41_control.md R86): it emits `x[0]`, which the host observes as `State.result`, and signals Halt. -/
def execHalt (s : State) : Host.Outcome State Fault Refusal :=
  finishCycle s (.done .halt s)

end Sys2Proof.Machine
end

