-- ==== Sys2Proof/Machine/DataOps.lean ====
section
/-! DEFINITION. The register and arithmetic instructions Load, Swap and Mod (40_dataops.md). -/

namespace Sys2Proof.Machine

/-- `Load d v` (40_dataops.md R61): `x[d] <- zext_16(v)`. -/
def execLoad (d v : Nat) (s : State) : Host.Outcome State Fault Refusal :=
  finishCycle s <|
    match Reg.ofIndex d with
    | none => .raised .registerOutOfRange
    | some rd => .done .proceed (s.setReg rd (zext16 v))

/-- The three ordered writes of a `Swap`, each reading the state the one before left (40_dataops.md R62; log entry 8):
`x[t] <- x[s]`, then `x[s] <- x[d]`, then `x[d] <- x[t]`. -/
def swapRegs (rf : RegFile) (rd rs rt : Reg) : RegFile :=
  let rf1 := rf.set rt (rf.get rs)
  let rf2 := rf1.set rs (rf1.get rd)
  rf2.set rd (rf2.get rt)

/-- `Swap d src t` (40_dataops.md R62). -/
def execSwap (d src t : Nat) (s : State) : Host.Outcome State Fault Refusal :=
  finishCycle s <|
    match Reg.ofIndices d src t with
    | none => .raised .registerOutOfRange
    | some (rd, rs, rt) => .done .proceed { s with regs := swapRegs s.regs rd rs rt }

/-- `Mod a b c` (40_dataops.md R63): the index checks, then the divisor check, then `x[c] <- x[a] % x[b]`. -/
def execMod (a b c : Nat) (s : State) : Host.Outcome State Fault Refusal :=
  finishCycle s <|
    match Reg.ofIndices a b c with
    | none => .raised .registerOutOfRange
    | some (ra, rb, rc) =>
      match remUnit (s.reg ra) (s.reg rb) with
      | .error kind => .raised kind
      | .ok v => .done .proceed (s.setReg rc v)

end Sys2Proof.Machine
end

