-- ==== Sys2Proof/Machine/Dispatch.lean ====
section
/-! DEFINITION. The meaning of each instruction, one arm per constructor: cycle steps 3 to 5 (41_control.md R80) from the
state at the start of the cycle. -/

namespace Sys2Proof.Machine

def exec (i : Instr) (s : State) : Host.Outcome State Fault Refusal :=
  match i with
  | .halt => Sys2Proof.Machine.execHalt s
  | .load d v => Sys2Proof.Machine.execLoad d v s
  | .swap d src t => Sys2Proof.Machine.execSwap d src t s
  | .mod a b c => Sys2Proof.Machine.execMod a b c s
  | .bez r o => Sys2Proof.Machine.execBez r o s

end Sys2Proof.Machine
end

