-- ==== Sys2Proof/Machine/Step.lean ====
section
/-! DEFINITION. One step is one cycle (41_control.md R80; 10_state.md R31). -/

namespace Sys2Proof.Machine

/-- One cycle when the status is `Running`, nothing otherwise (10_state.md R31; log entry 7): fetch and decode, whose
faults end the cycle, then `exec`. -/
def step (s : State) : Host.Outcome State Fault Refusal :=
  match s.status with
  | .halted => .next s
  | .faulted _ => .next s
  | .running =>
    match fetchDecode s with
    | .error (kind, fopcode) => .next (s.raise kind fopcode)
    | .ok i => exec i s

/-- The state whose next step fetches and runs exactly the given word: the word stands at ip in the program, and the
machine is running (log entry 4). -/
def State.withFetchWord (s : State) (nbits w : Nat) : State :=
  { s with
    prog := placeWord s.prog s.ip (tableWord nbits w)
    status := .running
    fault := none }

end Sys2Proof.Machine
end

