-- ==== Sys2Proof/Machine/Blocks.lean ====
section
/-! DEFINITION. The machine a second time, as the blocks of 10_state.md R32 with a hardware ip of `IP_W` bits
(00_scope.md R6): fetch unit, decoder, register file with its own bound check, remainder unit, ip unit and control
multiplexer, composed once per cycle. `step` follows the pseudocode of the cycle (41_control.md R80); this follows the
block contracts. No fixed name refers to it; statements compare the two (log entries 5 and 20). -/

namespace Sys2Proof.Machine

/-- The state with a hardware ip register of `ipW` bits. -/
structure BlockState (ipW : Nat) where
  regs   : RegFile
  ip     : BitVec ipW
  status : RunStatus
  fault  : Option FaultRecord
  prog   : List Word
deriving DecidableEq, Repr

/-- The architectural state it stands for. -/
def BlockState.toState {ipW : Nat} (h : BlockState ipW) : State where
  regs   := h.regs
  ip     := h.ip.toNat
  status := h.status
  fault  := h.fault
  prog   := h.prog

/-- The ip unit and control multiplexer (10_state.md R32; 41_control.md R82): from ip, the ControlSignal, BEZ's take
decision and offset, the next ip (in `ipW`-bit arithmetic) and the next status. -/
def controlMux {ipW : Nat} (ip : BitVec ipW) (sig : ControlSignal) (take : Bool) (offset : Nat) :
    BitVec ipW × RunStatus :=
  match sig, take with
  | .halt, _ => (ip, .halted)
  | .proceed, true => (ip - BitVec.ofNat ipW offset + 1#ipW, .running)
  | .proceed, false => (ip + 1#ipW, .running)

/-- What the blocks of cycle step 3 hand to the multiplexer: the register file's next contents, the ControlSignal, the
take decision and the offset. -/
structure BlockResult where
  regs   : RegFile
  sig    : ControlSignal
  take   : Bool
  offset : Nat
deriving DecidableEq, Repr

/-- The three ordered register-file accesses of a `Swap`, each with its own bound check (10_state.md R32; 40_dataops.md R62):
a failing access discards the file built so far. -/
def swapPorts (rf : RegFile) (d src t : Nat) : Except FaultKind RegFile := do
  let rf1 ← rf.write t (← rf.read src)
  let rf2 ← rf1.write src (← rf1.read d)
  rf2.write d (← rf2.read t)

/-- The register-file and remainder-unit accesses of a `Mod`: the destination's index is checked before the divisor's
value (40_dataops.md R63; log entry 9). -/
def modPorts (rf : RegFile) (a b c : Nat) : Except FaultKind RegFile := do
  let dividend ← rf.read a
  let divisor ← rf.read b
  let _ ← rf.read c
  rf.write c (← remUnit dividend divisor)

/-- The take decision of a `BEZ`, with the underflow check made against the ip register's value (41_control.md R83). -/
def bezDecision (rf : RegFile) (ip r o : Nat) : Except FaultKind Bool := do
  let v ← rf.read r
  if branchTaken v && branchUnderflows ip o then .error .ipUnderflow else .ok (branchTaken v)

/-- Cycle step 3 in the blocks. -/
def blockExecute (rf : RegFile) (ip : Nat) (i : Instr) : Except FaultKind BlockResult :=
  match i with
  | .halt => .ok { regs := rf, sig := .halt, take := false, offset := 0 }
  | .load d v => (rf.write d (zext16 v)).map fun rf' => { regs := rf', sig := .proceed, take := false, offset := 0 }
  | .swap d src t => (swapPorts rf d src t).map fun rf' => { regs := rf', sig := .proceed, take := false, offset := 0 }
  | .mod a b c => (modPorts rf a b c).map fun rf' => { regs := rf', sig := .proceed, take := false, offset := 0 }
  | .bez r o => (bezDecision rf ip r o).map fun take => { regs := rf, sig := .proceed, take := take, offset := o }

/-- A fault in any block: only the status and the record are written (60_exceptions.md R92). -/
def BlockState.fail {ipW : Nat} (h : BlockState ipW) (kind : FaultKind) (fopcode : Option Nibble) : BlockState ipW :=
  { h with status := .faulted kind, fault := some { kind := kind, fip := h.ip.toNat, fopcode := fopcode } }

/-- One evaluation of the blocks: a cycle while running, nothing otherwise (10_state.md R31, R32). -/
def BlockState.cycle {ipW : Nat} (h : BlockState ipW) : BlockState ipW :=
  match h.status with
  | .halted => h
  | .faulted _ => h
  | .running =>
    match fetch h.prog h.ip.toNat with
    | none => h.fail .fetchOutOfBounds none
    | some w =>
      match decode w with
      | .badOpcode op => h.fail .decodeError (some op)
      | .instr i =>
        match blockExecute h.regs h.ip.toNat i with
        | .error kind => h.fail kind none
        | .ok out =>
          let next := controlMux h.ip out.sig out.take out.offset
          { h with regs := out.regs, ip := next.1, status := next.2 }

end Sys2Proof.Machine
end

