-- ==== Sys2Proof/Machine/Interface.lean ====
section
/-! DEFINITION. What the host may do to the machine (60_exceptions.md R98; 10_state.md R31) and the run of the source's
interface (41_control.md R88), under a ceiling of the host's own (41_control.md R87). -/

namespace Sys2Proof.Machine

/-- The moves of the host that change the machine (60_exceptions.md R98; 70_reset_and_hazards.md R110). Observing changes
nothing, and there is no move that touches a register, ip or the program of a constructed machine (log entry 15). -/
inductive HostMove where
  | construct (prog : List Word)
  | step
  | reset
deriving DecidableEq, Repr

/-- The effect of a move of the host. -/
def hostMove (m : HostMove) (s : State) : Host.Outcome State Fault Refusal :=
  match m with
  | .construct prog => .next (State.newVm prog)
  | .step => step s
  | .reset => .next s.assertReset

/-- `run`: step until the status is not `Running`, and return `x[0]` on `Halted` or the fault kind on `Faulted`
(10_state.md R31; 41_control.md R88). The first argument is the host's ceiling on cycles; none says that the ceiling
came first and the machine is still running, with no result (41_control.md R87; log entry 19). -/
def runFor : Nat → State → Option (Except FaultKind Word)
  | ceiling, s =>
    match s.status with
    | .halted => some (.ok (s.reg .x0))
    | .faulted kind => some (.error kind)
    | .running =>
      match ceiling with
      | 0 => none
      | n + 1 =>
        match step s with
        | .next t => runFor n t
        | .fault _ => none
        | .refused _ => none

end Sys2Proof.Machine
end

