-- ==== Sys2Proof/Safety.lean ====
section
/-! DEFINITION. What the statements say about states and runs: the instruction at ip, the cause of each fault, the
invariants, agreement of two states on registers. -/

namespace Sys2Proof.Machine

/-- The word at ip decodes to `i` (cycle steps 1 and 2, 41_control.md R80). -/
def State.fetches (s : State) (i : Instr) : Prop :=
  ∃ w, fetch s.prog s.ip = some w ∧ decode w = .instr i

/-- The condition under which a running machine's cycle raises each fault kind: the table of 60_exceptions.md R90 read with
the priority of R93 (log entries 9 and 11). -/
def State.faultCondition (s : State) : FaultKind → Prop
  | .fetchOutOfBounds => s.prog.length ≤ s.ip
  | .decodeError => ∃ w, fetch s.prog s.ip = some w ∧ 5 ≤ w.toNat / 4096
  | .registerOutOfRange => ∃ i, s.fetches i ∧ ∃ f ∈ i.regFields, 2 < f
  | .divisionByZero => ∃ a b c : Reg, s.fetches (.mod a.index b.index c.index) ∧ (s.reg b).toNat = 0
  | .ipUnderflow => ∃ (r : Reg) (o : Nat), s.fetches (.bez r.index o) ∧ (s.reg r).toNat = 0 ∧ s.ip < o

/-- The record a fault of this kind leaves in this state: `fip` is ip, which a fault does not change, and `fopcode` is bits
15:12 of the word at ip for `DecodeError` only (10_state.md R27; log entry 13). -/
def State.recordFor (s : State) (kind : FaultKind) : FaultRecord where
  kind    := kind
  fip     := s.ip
  fopcode := match kind with
    | .decodeError => (fetch s.prog s.ip).map fun w => BitVec.ofNat 4 (w.toNat / 4096)
    | .fetchOutOfBounds => none
    | .registerOutOfRange => none
    | .divisionByZero => none
    | .ipUnderflow => none

/-- The invariant of the machine. ip never passes `PROG_LEN` (10_state.md R25); the record is there exactly when the status
is `Faulted`, and it is the right one (R27); and a finished machine shows why it finished: a `Halted` one stands at a Halt
word (41_control.md R86), a `Faulted` one at the condition of its kind (60_exceptions.md R90, R92). -/
structure State.Inv (s : State) : Prop where
  ip_le_length : s.ip ≤ s.prog.length
  no_record    : (∀ kind, s.status ≠ .faulted kind) → s.fault = none
  record       : ∀ kind, s.status = .faulted kind → s.fault = some (s.recordFor kind)
  halted_at    : s.status = .halted → s.fetches .halt
  faulted_at   : ∀ kind, s.status = .faulted kind → s.faultCondition kind

/-- Every register holds a value a `Load` can write: at most 255 (40_dataops.md R61). -/
def State.bytesInRegs (s : State) : Prop := ∀ r, (s.reg r).toNat ≤ 255

/-- Two states hold the same value in every register of the list of indices. -/
def agreeOn (indices : List Nat) (s t : State) : Prop := ∀ r : Reg, r.index ∈ indices → s.reg r = t.reg r

/-- No word of the program decodes to a BEZ. -/
def branchFree (prog : List Word) : Prop := ∀ w ∈ prog, ∀ r o, decode w ≠ .instr (.bez r o)

/-- The state after `n` steps of the host's machine, where every step answered a next state. -/
def reaches (n : Nat) (s t : State) : Prop := Sys2Proof.core.run n s = .next t

end Sys2Proof.Machine
end

