-- ==== Sys2Proof/Certificates/Slice0/Obligations.lean ====
section
/-! DEFINITION. The statements for the provers, one definition each. A register `r : Reg` named in a statement stands for
the index `r.index`, so a statement over all `Reg` holds for every index of 0, 1 and 2; statements about the indices
above 2 say so. -/

open Sys2Proof Sys2Proof.Machine

/-! ### Encoding and decoding -/

/-- 30_encoding.md R54: the opcode map. Each word is in exactly one row, and decodes to that row's instruction with the
row's fields, read off the word's value as a number: `f1` is `n / 256 % 16`, `f2` is `n / 16 % 16`, `f3` is `n % 16`,
`imm8` is `n % 256`, `op` is `n / 4096`. -/
def Obligations.DecodeFollowsOpcodeMap : Prop :=
  ∀ (w : Word) (n : Nat), w.toNat = n →
    (n ≤ 0x0FFF → decode w = .instr .halt) ∧
    (0x1000 ≤ n → n ≤ 0x1FFF → decode w = .instr (.load (n / 256 % 16) (n % 256))) ∧
    (0x2000 ≤ n → n ≤ 0x2FFF → decode w = .instr (.swap (n / 256 % 16) (n / 16 % 16) (n % 16))) ∧
    (0x3000 ≤ n → n ≤ 0x3FFF → decode w = .instr (.mod (n / 256 % 16) (n / 16 % 16) (n % 16))) ∧
    (0x4000 ≤ n → n ≤ 0x4FFF → decode w = .instr (.bez (n / 256 % 16) (n % 256))) ∧
    (0x5000 ≤ n → decode w = .badOpcode (BitVec.ofNat 4 (n / 4096)))

/-- 30_encoding.md R50: the fields of every word are the source's shifts and masks, `imm8` overlaps `f2` and `f3`, and each
instruction's operands are the fields of its format (`Halt` uses none). -/
def Obligations.FieldsAreShiftsAndMasks : Prop :=
  ∀ w : Word,
    (fields w).op.toNat = (w >>> 12).toNat ∧
    (fields w).f1 = ((w >>> 8) &&& 0xF#16).toNat ∧
    (fields w).f2 = ((w >>> 4) &&& 0xF#16).toNat ∧
    (fields w).f3 = (w &&& 0xF#16).toNat ∧
    (fields w).imm8 = (w &&& 0xFF#16).toNat ∧
    (fields w).imm8 = (fields w).f2 * 16 + (fields w).f3 ∧
    (∀ d v, decode w = .instr (.load d v) → d = (fields w).f1 ∧ v = (fields w).imm8) ∧
    (∀ d s t, decode w = .instr (.swap d s t) → d = (fields w).f1 ∧ s = (fields w).f2 ∧ t = (fields w).f3) ∧
    (∀ a b c, decode w = .instr (.mod a b c) → a = (fields w).f1 ∧ b = (fields w).f2 ∧ c = (fields w).f3) ∧
    (∀ r o, decode w = .instr (.bez r o) → r = (fields w).f1 ∧ o = (fields w).imm8)

/-- Every well-formed instruction decodes from its own word, every operand kept at every value its field admits
(the round trip of 30_encoding.md R56). -/
def Obligations.DecodeOfEncodeIsIdentity : Prop :=
  ∀ i : Instr, i.wellFormed = true → decode (encode i) = .instr i

/-- What decodes is well formed, and encodes back to its own word; a Halt word, whose low 12 bits are ignored, encodes back
to 0x0000 (30_encoding.md R55, R56). -/
def Obligations.EncodeOfDecodeIsIdentity : Prop :=
  ∀ (w : Word) (i : Instr), decode w = .instr i →
    i.wellFormed = true ∧
    (0x1000 ≤ w.toNat → encode i = w) ∧
    (w.toNat < 0x1000 → i = .halt ∧ encode i = 0x0000#16)

/-- Words written out from the encodings of 30_encoding.md decode to the instructions they stand for
(95_test_vectors.md 2.6). A sanity statement. -/
def Obligations.SpecWordsDecode : Prop :=
  decode 0b0000111111111111#16 = .instr .halt ∧
  decode 0b0001000100001111#16 = .instr (.load 1 15) ∧
  decode 0b0010000000010010#16 = .instr (.swap 0 1 2) ∧
  decode 0b0011111111101101#16 = .instr (.mod 15 14 13) ∧
  decode 0b0100101011111111#16 = .instr (.bez 10 255) ∧
  decode 0b0111101010111100#16 = .badOpcode 7#4

/-! ### The cycle -/

/-- A step of a running machine whose word at ip decodes to `i` is `exec` of `i` at that state: nothing is added around it
(cycle steps 1 to 3, 41_control.md R80). -/
def Obligations.StepRunsDecodedInstruction : Prop :=
  ∀ (s : State) (w : Word) (i : Instr),
    s.status = .running → s.prog[s.ip]? = some w → decode w = .instr i → step s = exec i s

/-- The two faults of cycle steps 1 and 2 (20_memory.md R42; 30_encoding.md R53): at or above `PROG_LEN`, and at a word whose
opcode nibble is 5 to 15. That x and ip are unchanged and what the record holds are the spec's own choices (92_eei_decisions.md
D8 and D11; log entries 10 and 13). -/
def Obligations.FetchAndDecodeFaults : Prop :=
  ∀ s : State, s.status = .running →
    (s.prog.length ≤ s.ip →
      step s = .next { s with
        status := .faulted .fetchOutOfBounds
        fault := some { kind := .fetchOutOfBounds, fip := s.ip, fopcode := none } }) ∧
    (∀ w : Word, s.prog[s.ip]? = some w → 0x5000 ≤ w.toNat →
      step s = .next { s with
        status := .faulted .decodeError
        fault := some { kind := .decodeError, fip := s.ip, fopcode := some (BitVec.ofNat 4 (w.toNat / 4096)) } })

/-- The machine never stops without a state of the spec: from every state, any number of steps answers a next state, with no
fault or refusal of the model. The faults of the spec are states (60_exceptions.md R92, R95), and a finished machine stays
(10_state.md R31; log entries 6 and 7). -/
def Obligations.EveryRunAnswersNextStates : Prop :=
  ∀ (n : Nat) (s : State), ∃ t, reaches n s t

/-- The first state whose status is not Running ends the run (41_control.md R88). From it no number of steps changes anything,
and the host's run returns `x[0]` if it halted, the fault kind and no result if it faulted. That it returns nothing when the
host's ceiling comes first is the spec's own choice (92_eei_decisions.md D15; log entry 19). -/
def Obligations.RunEndsAtFirstFinishedState : Prop :=
  ∀ (n : Nat) (s t : State), reaches n s t →
    (t.status = .halted →
      runFor n s = some (.ok (t.reg .x0)) ∧ t.result = some (t.reg .x0) ∧ ∀ m, reaches m t t) ∧
    (∀ kind, t.status = .faulted kind →
      runFor n s = some (.error kind) ∧ t.result = none ∧ ∀ m, reaches m t t) ∧
    (t.status = .running → runFor n s = none)

/-- A running machine's next ip and status, row by row as the control multiplexer gives them (41_control.md R82; 10_state.md
R25). Three clauses rest on the spec's own choices: ip unchanged on a fault (92_eei_decisions.md D8; log entry 10), the bound
`o <= ip` of a taken BEZ that goes on (D9; log entry 11), and ip unchanged on Halt (D10; log entry 12). -/
def Obligations.ControlMultiplexerRows : Prop :=
  ∀ s t : State, s.status = .running → step s = .next t →
    (∀ kind, t.status = .faulted kind → t.ip = s.ip) ∧
    (t.status = .halted → t.ip = s.ip ∧ s.fetches .halt) ∧
    (t.status = .running → ∃ i, s.fetches i ∧ i ≠ .halt ∧
      ∀ r o, i = .bez r o →
        ∃ rr : Reg, rr.index = r ∧
          (s.reg rr = 0#16 → o ≤ s.ip ∧ t.ip = s.ip - o + 1) ∧
          (s.reg rr ≠ 0#16 → t.ip = s.ip + 1)) ∧
    (t.status = .running → (∀ r o, ¬ s.fetches (.bez r o)) → t.ip = s.ip + 1) ∧
    t.ip ≤ s.ip + 1

/-- A running machine goes to `Faulted(kind)` in exactly the states that meet the condition of that kind: the table of
60_exceptions.md R90 under the priority of R93. The priority inside one instruction and the BEZ boundary are the spec's own
choices (92_eei_decisions.md D7, D9; log entries 9 and 11). -/
def Obligations.FaultExactlyOnItsCondition : Prop :=
  ∀ (s : State) (kind : FaultKind), s.status = .running →
    ((∃ t, step s = .next t ∧ t.status = .faulted kind) ↔ s.faultCondition kind)

/-- A running machine halts in exactly the states whose word at ip is a Halt word, 0x0000 to 0x0FFF (41_control.md R85, R86). -/
def Obligations.HaltsExactlyAtHaltWords : Prop :=
  ∀ s : State, s.status = .running →
    ((∃ t, step s = .next t ∧ t.status = .halted) ↔ ∃ w, s.prog[s.ip]? = some w ∧ w.toNat ≤ 0x0FFF)

/-- A fault is precise: it writes the status and the record and nothing else (60_exceptions.md R92). The unchanged registers
and ip are the spec's own choice (92_eei_decisions.md D8; log entry 10), and so is the record (D11; log entry 13). -/
def Obligations.FaultChangesOnlyStatusAndRecord : Prop :=
  ∀ (s t : State) (kind : FaultKind), s.status = .running → step s = .next t → t.status = .faulted kind →
    t = { s with status := .faulted kind, fault := some (s.recordFor kind) }

/-! ### What each instruction does -/

/-- `Load d v` writes `v`, zero-extended, to `x[d]`, leaves everything else and moves to the next word (40_dataops.md R61;
41_control.md R81). -/
def Obligations.LoadWritesImmediate : Prop :=
  ∀ (s : State) (d : Reg) (v : Nat), v < 256 →
    ∃ t, exec (.load d.index v) s = .next t ∧
      (t.reg d).toNat = v ∧
      (∀ r, r ≠ d → t.reg r = s.reg r) ∧
      t.ip = s.ip + 1 ∧ t.status = s.status ∧ t.fault = s.fault ∧ ∀ a, fetch t.prog a = fetch s.prog a

/-- `Swap d s t`, in every aliasing case of its three fields (the table of 40_dataops.md R62). Two of the cases rest on the
spec's own choice of three writes in order (92_eei_decisions.md D6; log entry 8). -/
def Obligations.SwapInEveryAliasingCase : Prop :=
  ∀ (s : State) (d src tmp : Reg),
    ∃ t, exec (.swap d.index src.index tmp.index) s = .next t ∧
      (d ≠ src → tmp ≠ d → tmp ≠ src →
        t.reg d = s.reg src ∧ t.reg src = s.reg d ∧ t.reg tmp = s.reg src) ∧
      (d = src → tmp ≠ d → t.reg d = s.reg d ∧ t.reg tmp = s.reg src) ∧
      (tmp = d → src ≠ d → t.reg d = s.reg src ∧ t.reg src = s.reg src) ∧
      (tmp = src → d ≠ src → t.reg d = s.reg d ∧ t.reg src = s.reg d) ∧
      (d = src → tmp = d → t.reg d = s.reg d) ∧
      (∀ r, r ≠ d → r ≠ src → r ≠ tmp → t.reg r = s.reg r) ∧
      t.ip = s.ip + 1 ∧ t.status = s.status ∧ t.fault = s.fault ∧ ∀ a, fetch t.prog a = fetch s.prog a

/-- `Mod a b c` with a non-zero divisor writes the natural-number remainder of the old values to `x[c]`, leaves everything
else and moves to the next word (40_dataops.md R63, R64). That the result is the `r` below `x[b]` with `x[a] = q*x[b] + r` is the
definition of `%` in 00_scope.md R8, which the spec takes from general knowledge (93_implementation_defined.md G1; log entry 22). -/
def Obligations.ModWritesRemainder : Prop :=
  ∀ (s : State) (a b c : Reg), s.reg b ≠ 0#16 →
    ∃ t, exec (.mod a.index b.index c.index) s = .next t ∧
      (∃ q, (s.reg a).toNat = q * (s.reg b).toNat + (t.reg c).toNat) ∧
      (t.reg c).toNat < (s.reg b).toNat ∧
      (∀ r, r ≠ c → t.reg r = s.reg r) ∧
      t.ip = s.ip + 1 ∧ t.status = s.status ∧ t.fault = s.fault ∧ ∀ i, fetch t.prog i = fetch s.prog i

/-- `Mod a b c` with a zero divisor faults and writes no register (40_dataops.md R63). The unchanged state and the record are the
spec's own choices (92_eei_decisions.md D8, D11; log entries 10 and 13). -/
def Obligations.ModByZeroFaults : Prop :=
  ∀ (s : State) (a b c : Reg), s.reg b = 0#16 →
    exec (.mod a.index b.index c.index) s = .next { s with
      status := .faulted .divisionByZero
      fault := some { kind := .divisionByZero, fip := s.ip, fopcode := none } }

/-- `BEZ r o`: not taken, it only moves to the next word; taken, it moves to `ip - o + 1`; taken with `o > ip`, it faults
(41_control.md R83, R84). The boundary of the underflow, the unchanged state and the record of a fault are the spec's own
choices (92_eei_decisions.md D8, D9, D11; log entries 10, 11 and 13). -/
def Obligations.BezBranchesBackOnZero : Prop :=
  ∀ (s : State) (r : Reg) (o : Nat),
    (s.reg r ≠ 0#16 → exec (.bez r.index o) s = .next { s with ip := s.ip + 1 }) ∧
    (s.reg r = 0#16 → o ≤ s.ip → exec (.bez r.index o) s = .next { s with ip := s.ip - o + 1 }) ∧
    (s.reg r = 0#16 → s.ip < o →
      exec (.bez r.index o) s = .next { s with
        status := .faulted .ipUnderflow
        fault := some { kind := .ipUnderflow, fip := s.ip, fopcode := none } })

/-- `Halt` stops the machine with `x[0]` as the result; no register, no ip, no program word changes, and from then on no number of
steps changes anything and the host's run returns that value (41_control.md R86, R88). That ip and the registers stay is the
spec's own reading (92_eei_decisions.md D10; log entry 12). -/
def Obligations.HaltStopsWithRegisterZero : Prop :=
  ∀ s : State, ∃ t, exec .halt s = .next t ∧
    t = { s with status := .halted } ∧ t.result = some (s.reg .x0) ∧
    ∀ n, reaches n t t ∧ runFor n t = some (.ok (s.reg .x0))

/-- An instruction that uses a register field above 2 faults with `RegisterOutOfRange`, whichever of its fields it is and
whatever else holds, and does nothing else (10_state.md R22; 40_dataops.md R60; 60_exceptions.md R93). The priority over the
other faults, the unchanged state and the record are the spec's own choices (92_eei_decisions.md D7, D8, D11; log entries 9,
10 and 13). -/
def Obligations.BadRegisterFieldFaults : Prop :=
  ∀ (s : State) (i : Instr), (∃ f ∈ i.regFields, 2 < f) →
    exec i s = .next { s with
      status := .faulted .registerOutOfRange
      fault := some { kind := .registerOutOfRange, fip := s.ip, fopcode := none } }

/-- A register field is checked when the instruction executes and never when it decodes (30_encoding.md R52): every well-formed
instruction with a field above 2 is what some word decodes to, and the step that runs that word faults. The kind named for a
`Mod` with a zero divisor is the spec's own choice (92_eei_decisions.md D7; log entry 9). -/
def Obligations.BadRegisterFieldDecodesThenFaults : Prop :=
  ∀ i : Instr, i.wellFormed = true → (∃ f ∈ i.regFields, 2 < f) →
    ∃ w : Word, decode w = .instr i ∧
      ∀ s : State, s.status = .running → s.prog[s.ip]? = some w →
        ∃ t, step s = .next t ∧ t.status = .faulted .registerOutOfRange

/-- The remainder unit computes the natural-number remainder of two 16-bit unsigned values, without sign and without a quotient,
for every divisor but 0 (40_dataops.md R64). The definition of that remainder (00_scope.md R8) is the spec's from general
knowledge (93_implementation_defined.md G1; log entry 22). -/
def Obligations.RemainderUnitIsNaturalRemainder : Prop :=
  ∀ a b : Word, b ≠ 0#16 →
    ∃ r : Word, remUnit a b = .ok r ∧ r.toNat < b.toNat ∧ ∃ q, a.toNat = q * b.toNat + r.toNat

/-- A `Mod` that writes its remainder over its dividend keeps the greatest common divisor of dividend and divisor, so Euclid's
algorithm can be written with it (00_scope.md R1, R3; 40_dataops.md R63). It rests on the definition of the remainder that the
spec takes from general knowledge (93_implementation_defined.md G1; log entry 22). -/
def Obligations.ModKeepsGcd : Prop :=
  ∀ (s : State) (a b : Reg), a ≠ b → s.reg b ≠ 0#16 →
    ∃ t, exec (.mod a.index b.index a.index) s = .next t ∧
      Nat.gcd (t.reg a).toNat (t.reg b).toNat = Nat.gcd (s.reg a).toNat (s.reg b).toNat

/-! ### Frames and whole-machine rules -/

/-- The frame of every instruction (10_state.md R23): when `exec` answers a next state, only the registers of the
instruction's `writes` row may differ, no program word differs, the status changes only to `Halted` by a Halt or to a fault, and
the record changes only with a fault. -/
def Obligations.InstructionFrame : Prop :=
  ∀ (i : Instr) (s t : State), exec i s = .next t →
    (∀ r : Reg, r.index ∉ i.writes → t.reg r = s.reg r) ∧
    (∀ a, fetch t.prog a = fetch s.prog a) ∧
    (t.status = s.status ∨ (i = .halt ∧ t.status = .halted) ∨ ∃ kind, t.status = .faulted kind) ∧
    (t.fault = s.fault ∨ ∃ kind, t.status = .faulted kind)

/-- What an instruction does depends on no register but those of its `reads` row (10_state.md R23): two running states with the
same ip that agree on those registers go to the same ip, the same status, the same record and the same result, and, unless
they fault, agree on every register written. -/
def Obligations.OnlyReadRegistersMatter : Prop :=
  ∀ (i : Instr) (s t s' t' : State), s.status = .running → t.status = .running → s.fault = t.fault → s.ip = t.ip →
    agreeOn i.reads s t → exec i s = .next s' → exec i t = .next t' →
    s'.ip = t'.ip ∧ s'.status = t'.status ∧ s'.fault = t'.fault ∧ s'.result = t'.result ∧
    ((∀ kind, s'.status ≠ .faulted kind) → agreeOn i.writes s' t')

/-- A cycle reads nothing of the program but the word at ip (10_state.md R29; 20_memory.md R45): two states that differ only
in the program, and agree on that word, make the same step. -/
def Obligations.StepReadsOnlyWordAtIp : Prop :=
  ∀ (s t : State) (prog : List Word), prog[s.ip]? = s.prog[s.ip]? → step s = .next t →
    step { s with prog := prog } = .next { t with prog := prog }

/-- No run of any length changes the program (20_memory.md R41). Of the host's moves, only a new construction brings another
program (70_reset_and_hazards.md R111): the reset input (R110), which is the spec's own addition (92_eei_decisions.md D17; log
entry 15), does not. -/
def Obligations.ProgramIsNeverWritten : Prop :=
  (∀ (n : Nat) (s t : State), reaches n s t → t.prog = s.prog) ∧
  (∀ (m : HostMove) (s t : State), hostMove m s = .next t → t.prog ≠ s.prog → ∃ prog, m = .construct prog ∧ t.prog = prog)

/-- Construction and reset leave the values of 10_state.md R30 (70_reset_and_hazards.md R110), whatever the state before. The
reset input is the spec's own addition (92_eei_decisions.md D17; log entry 15), and the empty program of `State.reset` is the
model's choice (log entry 3). -/
def Obligations.ResetValues : Prop :=
  (∀ (s : State) (prog : List Word), ∃ t, hostMove (.construct prog) s = .next t ∧
    (∀ r, t.reg r = 0#16) ∧ t.ip = 0 ∧ t.status = .running ∧ t.fault = none ∧ t.prog = prog) ∧
  (∀ s : State, ∃ t, hostMove .reset s = .next t ∧
    (∀ r, t.reg r = 0#16) ∧ t.ip = 0 ∧ t.status = .running ∧ t.fault = none ∧ t.prog = s.prog) ∧
  State.reset = State.newVm []

/-- Every host move keeps the machine's invariant: ip stays at most `PROG_LEN`, the record is there exactly when the machine
faulted and is the right one, and a finished machine stands where its end is explained (10_state.md R25, R27; 60_exceptions.md
R90, R92; 41_control.md R86; 70_reset_and_hazards.md R110). The spec's own choices it rests on are in 92_eei_decisions.md: the
reset input (D17; log entry 15), the state and the record after a fault (D8, D11; log entries 10 and 13), ip at the Halt word after
Halt (D10; log entry 12), and the kind that is named, under the priority of the checks (D7; log entry 9) and the boundary of the
underflow (D9; log entry 11). -/
def Obligations.EveryHostMoveKeepsInvariant : Prop :=
  ∀ (m : HostMove) (s t : State), s.Inv → hostMove m s = .next t → t.Inv

/-- The invariant holds of every constructed machine, and of the state after reset. -/
def Obligations.ConstructedMachineMeetsInvariant : Prop :=
  (∀ prog, (State.newVm prog).Inv) ∧ State.reset.Inv

/-- Nothing in the instruction set makes a value above 255 out of values of at most 255 (10_state.md R24; 40_dataops.md R61): every
step keeps all three registers at most 255, and every constructed machine starts so. For a Mod it rests on the definition of the
remainder that the spec takes from general knowledge (93_implementation_defined.md G1; log entry 22). -/
def Obligations.NoStepMakesValueAboveByte : Prop :=
  (∀ s t : State, s.bytesInRegs → step s = .next t → t.bytesInRegs) ∧ ∀ prog, (State.newVm prog).bytesInRegs

/-- An ip register of any width that the program fits never wraps (00_scope.md R6; 10_state.md R25): from a state whose ip is at
most `PROG_LEN`, no run of any length takes ip above `PROG_LEN`, hence out of the register. The premise is the spec's own choice
(92_eei_decisions.md D4; log entry 5). -/
def Obligations.IpNeverLeavesItsWidth : Prop :=
  ∀ (ipW n : Nat) (s t : State), Config.ipWidthFits ipW s.prog.length → s.ip ≤ s.prog.length → reaches n s t →
    t.ip ≤ t.prog.length ∧ t.ip < 2 ^ ipW

/-- The blocks of 10_state.md R32, with an ip register of any width the program fits, make the same step as the cycle of
41_control.md R80: the fault priority, the discarded writes of a failing Swap and the width's arithmetic all come out the same.
The block structure and the premise on the width are the spec's own choices (92_eei_decisions.md D2, D4; log entries 5 and 20). -/
def Obligations.BlocksRefineCycle : Prop :=
  ∀ (ipW : Nat) (h : BlockState ipW), Config.ipWidthFits ipW h.prog.length → h.ip.toNat ≤ h.prog.length →
    step h.toState = .next h.cycle.toState

/-- A program without a BEZ ends: from any running state with ip at most `PROG_LEN`, the machine has halted or faulted after as
many cycles as words are left, and one more (41_control.md R85, R87; 20_memory.md R42). -/
def Obligations.BranchFreeProgramEnds : Prop :=
  ∀ s : State, branchFree s.prog → s.status = .running → s.ip ≤ s.prog.length →
    ∃ t, reaches (s.prog.length - s.ip + 1) s t ∧ t.status ≠ .running

/-- A run can never end: a taken BEZ of offset 1 leaves the whole state as it was, so the machine is still running after any
number of cycles (41_control.md R83, R87). That the host's run then returns nothing under any ceiling is the spec's own choice
(92_eei_decisions.md D15; log entry 19). -/
def Obligations.SelfBranchNeverEnds : Prop :=
  ∀ (s : State) (r : Reg), s.status = .running → s.fetches (.bez r.index 1) → s.reg r = 0#16 → 1 ≤ s.ip →
    ∀ n, reaches n s s ∧ runFor n s = none
end

