-- ==== Sys2Proof/Laws/Decode.lean ====
section
/-! SUPPORT. The decoder's fields as numbers, its inversion, and the fields of an encoded word (30_encoding.md R50 to R56). -/

namespace Sys2Proof

/-- A field is the word's value divided and reduced: `w[lo+len-1 : lo]` (00_scope.md R7). -/
theorem field_eq (w : Word) (lo len : Nat) : field w lo len = w.toNat / 2 ^ lo % 2 ^ len := by
  simp [field, BitVec.extractLsb'_toNat, Nat.shiftRight_eq_div_pow]

theorem field_lt (w : Word) (lo len : Nat) : field w lo len < 2 ^ len := by
  rw [field_eq]; exact Nat.mod_lt _ (by positivity)

theorem opcode_toNat (w : Word) : (opcode w).toNat = w.toNat / 4096 := by
  have := w.isLt
  simp only [opcode, BitVec.extractLsb'_toNat, Nat.shiftRight_eq_div_pow]
  omega

/-- The opcode nibble, built from the word's value. -/
theorem opcode_eq_ofNat (w : Word) : opcode w = BitVec.ofNat 4 (w.toNat / 4096) := by
  rw [← opcode_toNat]; simp

/-- The decoder by opcode number (30_encoding.md R53). -/
theorem decode_eq (w : Word) :
    decode w = match w.toNat / 4096 with
      | 0 => .instr .halt
      | 1 => .instr (.load (field w 8 4) (field w 0 8))
      | 2 => .instr (.swap (field w 8 4) (field w 4 4) (field w 0 4))
      | 3 => .instr (.mod (field w 8 4) (field w 4 4) (field w 0 4))
      | 4 => .instr (.bez (field w 8 4) (field w 0 8))
      | _ => .badOpcode (opcode w) := by
  rw [← opcode_toNat]; rfl

/-- The decoder rejects exactly the opcodes 5 to 15, with the nibble it rejects. -/
theorem decode_badOpcode {w : Word} {op : Nibble} : decode w = .badOpcode op ↔ 5 ≤ w.toNat / 4096 ∧ op = opcode w := by
  rw [decode_eq]
  rcases w.toNat / 4096 with _ | _ | _ | _ | _ | n
  case succ.succ.succ.succ.succ => simpa using eq_comm
  all_goals simp

@[simp] theorem wellFormed_halt : Instr.halt.wellFormed = true := rfl

@[simp] theorem wellFormed_load (d v : Nat) : (Instr.load d v).wellFormed = true ↔ d < 16 ∧ v < 256 := by
  simp [Instr.wellFormed, fitsRegField, fitsImm8, Config.regField, Config.immLen]

@[simp] theorem wellFormed_swap (d s t : Nat) : (Instr.swap d s t).wellFormed = true ↔ d < 16 ∧ s < 16 ∧ t < 16 := by
  simp [Instr.wellFormed, fitsRegField, Config.regField, and_assoc]

@[simp] theorem wellFormed_mod (a b c : Nat) : (Instr.mod a b c).wellFormed = true ↔ a < 16 ∧ b < 16 ∧ c < 16 := by
  simp [Instr.wellFormed, fitsRegField, Config.regField, and_assoc]

@[simp] theorem wellFormed_bez (r o : Nat) : (Instr.bez r o).wellFormed = true ↔ r < 16 ∧ o < 256 := by
  simp [Instr.wellFormed, fitsRegField, fitsImm8, Config.regField, Config.immLen]

/-- The encoding of 30_encoding.md R56 as arithmetic: for fields in range, the bitwise or of the placed fields is their sum. -/
theorem encode_toNat {i : Instr} (h : i.wellFormed = true) :
    (encode i).toNat = match i with
      | .halt => 0
      | .load d v => 0x1000 + d * 256 + v
      | .swap d s t => 0x2000 + d * 256 + s * 16 + t
      | .mod a b c => 0x3000 + a * 256 + b * 16 + c
      | .bez r o => 0x4000 + r * 256 + o := by
  have or_add (a b k : Nat) (hb : b < 2 ^ k) : a * 2 ^ k ||| b = a * 2 ^ k + b := by
    rw [Nat.mul_comm, Nat.two_pow_add_eq_or_of_lt hb]
  have nibbles (o x y z : Nat) (hx : x < 16) (hy : y < 16) (hz : z < 16) :
      o * 4096 ||| x * 256 ||| y * 16 ||| z = o * 4096 + x * 256 + y * 16 + z := by
    have h1 := or_add o (x * 256) 12 (by omega)
    have h2 := or_add (o * 16 + x) (y * 16) 8 (by omega)
    have h3 := or_add (o * 256 + x * 16 + y) z 4 hz
    norm_num at h1 h2 h3
    rw [h1, show o * 4096 + x * 256 = (o * 16 + x) * 256 by ring, h2,
      show (o * 16 + x) * 256 + y * 16 = (o * 256 + x * 16 + y) * 16 by ring, h3]
  have byte (o x v : Nat) (hx : x < 16) (hv : v < 256) : o * 4096 ||| x * 256 ||| v = o * 4096 + x * 256 + v := by
    have h1 := or_add o (x * 256) 12 (by omega)
    have h2 := or_add (o * 16 + x) v 8 hv
    norm_num at h1 h2
    rw [h1, show o * 4096 + x * 256 = (o * 16 + x) * 256 by ring, h2]
  have placed (n lo : Nat) (hn : n * 2 ^ lo < 65536) : (placeAt n lo).toNat = n * 2 ^ lo := by
    have : n < 65536 := lt_of_le_of_lt (Nat.le_mul_of_pos_right n (by positivity)) hn
    simp [placeAt, Nat.shiftLeft_eq, Nat.mod_eq_of_lt this, Nat.mod_eq_of_lt hn]
  cases i with
  | halt => rfl
  | load d v =>
    simp only [wellFormed_load] at h
    simp only [encode, BitVec.toNat_or, placed d 8 (by omega), placed v 0 (by omega)]
    simpa using byte 1 d v h.1 h.2
  | bez r o =>
    simp only [wellFormed_bez] at h
    simp only [encode, BitVec.toNat_or, placed r 8 (by omega), placed o 0 (by omega)]
    simpa using byte 4 r o h.1 h.2
  | swap d s t =>
    simp only [wellFormed_swap] at h
    simp only [encode, BitVec.toNat_or, placed d 8 (by omega), placed s 4 (by omega), placed t 0 (by omega)]
    simpa using nibbles 2 d s t h.1 h.2.1 h.2.2
  | mod a b c =>
    simp only [wellFormed_mod] at h
    simp only [encode, BitVec.toNat_or, placed a 8 (by omega), placed b 4 (by omega), placed c 0 (by omega)]
    simpa using nibbles 3 a b c h.1 h.2.1 h.2.2

/-- What decodes is well formed: every operand is a field's value (30_encoding.md R56). -/
theorem decode_wellFormed {w : Word} {i : Instr} (h : decode w = .instr i) : i.wellFormed = true := by
  have f0 := field_lt w 0 4
  have f4 := field_lt w 4 4
  have f8 := field_lt w 8 4
  have f := field_lt w 0 8
  rw [decode_eq] at h
  split at h <;> cases h <;> simp_all

end Sys2Proof
end

