-- ==== Sys2Proof/Laws/PerInstr.lean ====
section
/-! SUPPORT. Statements made per instruction. `EncodeOpcode`: bits 15:12 of an instruction's word are its opcode number
(30_encoding.md R54), whatever its operands. -/

namespace Sys2Proof.Laws

/-- The opcode nibble of the encoded instruction is its row's number. -/
def EncodeOpcode.Statement (i : Instr) : Prop :=
  i.wellFormed = true → (opcode (encode i)).toNat = i.opcodeNumber

theorem EncodeOpcode.halt : EncodeOpcode.Statement .halt := fun _ => by decide

theorem EncodeOpcode.load (d v : Nat) : EncodeOpcode.Statement (.load d v) := fun h => by
  rw [opcode_toNat, encode_toNat h]; simp only [wellFormed_load] at h; simp only [Instr.opcodeNumber]; omega

theorem EncodeOpcode.swap (d s t : Nat) : EncodeOpcode.Statement (.swap d s t) := fun h => by
  rw [opcode_toNat, encode_toNat h]; simp only [wellFormed_swap] at h; simp only [Instr.opcodeNumber]; omega

theorem EncodeOpcode.mod (a b c : Nat) : EncodeOpcode.Statement (.mod a b c) := fun h => by
  rw [opcode_toNat, encode_toNat h]; simp only [wellFormed_mod] at h; simp only [Instr.opcodeNumber]; omega

theorem EncodeOpcode.bez (r o : Nat) : EncodeOpcode.Statement (.bez r o) := fun h => by
  rw [opcode_toNat, encode_toNat h]; simp only [wellFormed_bez] at h; simp only [Instr.opcodeNumber]; omega

end Sys2Proof.Laws
end

