-- ==== Sys2Proof/Laws/State.lean ====
section
/-! SUPPORT. One lemma per field per update of the state, true by unfolding, so that no proof unfolds a record update. -/

namespace Sys2Proof.Machine

variable (s : State)

@[simp] theorem setReg_regs (r : Reg) (v : Word) : (s.setReg r v).regs = s.regs.set r v := rfl
@[simp] theorem setReg_ip (r : Reg) (v : Word) : (s.setReg r v).ip = s.ip := rfl
@[simp] theorem setReg_status (r : Reg) (v : Word) : (s.setReg r v).status = s.status := rfl
@[simp] theorem setReg_fault (r : Reg) (v : Word) : (s.setReg r v).fault = s.fault := rfl
@[simp] theorem setReg_prog (r : Reg) (v : Word) : (s.setReg r v).prog = s.prog := rfl

@[simp] theorem setIp_regs (v : Nat) : (s.setIp v).regs = s.regs := rfl
@[simp] theorem setIp_ip (v : Nat) : (s.setIp v).ip = v := rfl
@[simp] theorem setIp_status (v : Nat) : (s.setIp v).status = s.status := rfl
@[simp] theorem setIp_fault (v : Nat) : (s.setIp v).fault = s.fault := rfl
@[simp] theorem setIp_prog (v : Nat) : (s.setIp v).prog = s.prog := rfl

@[simp] theorem raise_regs (k : FaultKind) (op : Option Nibble) : (s.raise k op).regs = s.regs := rfl
@[simp] theorem raise_ip (k : FaultKind) (op : Option Nibble) : (s.raise k op).ip = s.ip := rfl
@[simp] theorem raise_status (k : FaultKind) (op : Option Nibble) : (s.raise k op).status = .faulted k := rfl
@[simp] theorem raise_fault (k : FaultKind) (op : Option Nibble) :
    (s.raise k op).fault = some { kind := k, fip := s.ip, fopcode := op } := rfl
@[simp] theorem raise_prog (k : FaultKind) (op : Option Nibble) : (s.raise k op).prog = s.prog := rfl

@[simp] theorem newVm_regs (prog : List Word) : (State.newVm prog).regs = { x0 := 0#16, x1 := 0#16, x2 := 0#16 } := rfl
@[simp] theorem newVm_ip (prog : List Word) : (State.newVm prog).ip = 0 := rfl
@[simp] theorem newVm_status (prog : List Word) : (State.newVm prog).status = .running := rfl
@[simp] theorem newVm_fault (prog : List Word) : (State.newVm prog).fault = none := rfl
@[simp] theorem newVm_prog (prog : List Word) : (State.newVm prog).prog = prog := rfl

@[simp] theorem assertReset_eq_newVm : s.assertReset = State.newVm s.prog := rfl

@[simp] theorem withFetchWord_regs (n w : Nat) : (s.withFetchWord n w).regs = s.regs := rfl
@[simp] theorem withFetchWord_ip (n w : Nat) : (s.withFetchWord n w).ip = s.ip := rfl
@[simp] theorem withFetchWord_status (n w : Nat) : (s.withFetchWord n w).status = .running := rfl
@[simp] theorem withFetchWord_fault (n w : Nat) : (s.withFetchWord n w).fault = none := rfl
@[simp] theorem withFetchWord_prog (n w : Nat) :
    (s.withFetchWord n w).prog = placeWord s.prog s.ip (tableWord n w) := rfl

/-- Reading a register of a state whose register file is replaced. -/
theorem reg_eq_get (r : Reg) : s.reg r = s.regs.get r := rfl

@[simp] theorem setIp_reg (v : Nat) (r : Reg) : (s.setIp v).reg r = s.reg r := rfl
@[simp] theorem raise_reg (k : FaultKind) (op : Option Nibble) (r : Reg) : (s.raise k op).reg r = s.reg r := rfl
@[simp] theorem newVm_reg (prog : List Word) (r : Reg) : (State.newVm prog).reg r = 0#16 := by cases r <;> rfl

/-! What the host observes in each status (10_state.md R31). -/

theorem observe_of_running (h : s.status = .running) :
    s.observe = { status := .running, fault := none, result := none } := by simp [State.observe, State.result, h]

theorem observe_of_halted (h : s.status = .halted) :
    s.observe = { status := .halted, fault := none, result := some (s.reg .x0) } := by
  simp [State.observe, State.result, h]

theorem observe_of_faulted {k : FaultKind} (h : s.status = .faulted k) :
    s.observe = { status := .faulted k, fault := s.fault, result := none } := by simp [State.observe, State.result, h]

end Sys2Proof.Machine
end

