-- ==== Sys2Proof/Laws/Program.lean ====
section
/-! SUPPORT. The program memory: the fetch, its bound, and placing a word (20_memory.md R40 to R46). The list of words is its
own canonical form: programs that every fetch reads alike are equal, so there is no form to keep. -/

namespace Sys2Proof.Machine

theorem fetch_eq_none {prog : List Word} {a : Nat} : fetch prog a = none ↔ prog.length ≤ a := List.getElem?_eq_none_iff

theorem fetch_of_lt {prog : List Word} {a : Nat} (h : a < prog.length) : fetch prog a = some prog[a] :=
  List.getElem?_eq_getElem h

theorem lt_length_of_fetch {prog : List Word} {a : Nat} {w : Word} (h : fetch prog a = some w) : a < prog.length :=
  (List.getElem?_eq_some_iff.1 h).1

/-- Equal memories are equal data. -/
theorem prog_eq_of_fetch {p q : List Word} (h : ∀ a, fetch p a = fetch q a) : p = q := List.ext_getElem? h

/-- A placed word is what a fetch at its index reads. -/
@[simp] theorem fetch_placeWord_same (prog : List Word) (a : Nat) (w : Word) : fetch (placeWord prog a w) a = some w := by
  induction a generalizing prog with
  | zero => cases prog <;> rfl
  | succ a ih => cases prog <;> exact ih _

/-- Placing a word leaves every other word of the program alone. -/
theorem fetch_placeWord_other {prog : List Word} {a b : Nat} {w : Word} (hb : b ≠ a) (hlt : b < prog.length) :
    fetch (placeWord prog a w) b = fetch prog b := by
  induction prog generalizing a b with
  | nil => simp at hlt
  | cons v rest ih =>
    cases a with
    | zero =>
      cases b with
      | zero => exact absurd rfl hb
      | succ b => rfl
    | succ a =>
      cases b with
      | zero => rfl
      | succ b => exact ih (by omega) (by simpa using hlt)

end Sys2Proof.Machine
end

