-- ==== Sys2Proof/Laws/Regs.lean ====
section
/-! SUPPORT. Registers: which indices name one, and reading after writing (10_state.md R21, R22). -/

namespace Sys2Proof.Machine

@[simp] theorem ofIndex_index (r : Reg) : Reg.ofIndex r.index = some r := by cases r <;> rfl

theorem index_le_two (r : Reg) : r.index ≤ 2 := by cases r <;> decide

@[simp] theorem index_inj {r q : Reg} : r.index = q.index ↔ r = q := by cases r <;> cases q <;> decide

/-- Only the indices below `NREG` name a register. -/
theorem ofIndex_eq_none {n : Nat} : Reg.ofIndex n = none ↔ Config.nreg ≤ n := by
  match n with
  | 0 => decide
  | 1 => decide
  | 2 => decide
  | n + 3 => simp [Reg.ofIndex]

theorem ofIndex_eq_some {n : Nat} {r : Reg} : Reg.ofIndex n = some r ↔ n = r.index := by
  constructor
  · intro h
    match n with
    | 0 => cases h; rfl
    | 1 => cases h; rfl
    | 2 => cases h; rfl
    | n + 3 => simp [Reg.ofIndex] at h
  · rintro rfl; exact ofIndex_index r

@[simp] theorem ofIndices_index (r1 r2 r3 : Reg) :
    Reg.ofIndices r1.index r2.index r3.index = some (r1, r2, r3) := by simp [Reg.ofIndices]

theorem ofIndices_eq_some {a b c : Nat} {r1 r2 r3 : Reg} :
    Reg.ofIndices a b c = some (r1, r2, r3) ↔ a = r1.index ∧ b = r2.index ∧ c = r3.index := by
  constructor
  · intro h
    unfold Reg.ofIndices at h
    cases h1 : Reg.ofIndex a with
    | none => simp [h1] at h
    | some q1 =>
      cases h2 : Reg.ofIndex b with
      | none => simp [h1, h2] at h
      | some q2 =>
        cases h3 : Reg.ofIndex c with
        | none => simp [h1, h2, h3] at h
        | some q3 =>
          simp only [h1, h2, h3, Option.some.injEq, Prod.mk.injEq] at h
          obtain ⟨rfl, rfl, rfl⟩ := h
          exact ⟨ofIndex_eq_some.1 h1, ofIndex_eq_some.1 h2, ofIndex_eq_some.1 h3⟩
  · rintro ⟨rfl, rfl, rfl⟩; exact ofIndices_index r1 r2 r3

/-- The three fields resolve together or not at all: one above 2 is enough to fail (40_dataops.md R60). -/
theorem ofIndices_eq_none {a b c : Nat} : Reg.ofIndices a b c = none ↔ 2 < a ∨ 2 < b ∨ 2 < c := by
  unfold Reg.ofIndices
  split
  · rename_i h; have := ofIndex_eq_none.1 h; simp only [Config.nreg] at this; simp; omega
  rename_i r1 h1
  obtain rfl := ofIndex_eq_some.1 h1
  have := index_le_two r1
  split
  · rename_i h; have := ofIndex_eq_none.1 h; simp only [Config.nreg] at this; simp; omega
  rename_i r2 h2
  obtain rfl := ofIndex_eq_some.1 h2
  have := index_le_two r2
  split
  · rename_i h; have := ofIndex_eq_none.1 h; simp only [Config.nreg] at this; simp; omega
  rename_i r3 h3
  obtain rfl := ofIndex_eq_some.1 h3
  have := index_le_two r3
  simp; omega

@[simp] theorem get_set_same (rf : RegFile) (r : Reg) (v : Word) : (rf.set r v).get r = v := by cases r <;> rfl

theorem get_set_other {rf : RegFile} {r q : Reg} {v : Word} (h : q ≠ r) : (rf.set r v).get q = rf.get q := by
  cases r <;> cases q <;> first | rfl | exact absurd rfl h

theorem get_set (rf : RegFile) (r q : Reg) (v : Word) : (rf.set r v).get q = if q = r then v else rf.get q := by
  split
  · subst q; exact get_set_same rf r v
  · exact get_set_other ‹_›

@[simp] theorem setReg_reg_same (s : State) (r : Reg) (v : Word) : (s.setReg r v).reg r = v := get_set_same s.regs r v

theorem setReg_reg_other {s : State} {r q : Reg} {v : Word} (h : q ≠ r) : (s.setReg r v).reg q = s.reg q := get_set_other h

/-- Two register files with the same three values are the same. -/
theorem regFile_eq_of_get {rf rf' : RegFile} (h : ∀ r, rf.get r = rf'.get r) : rf = rf' := by
  obtain ⟨a, b, c⟩ := rf
  obtain ⟨a', b', c'⟩ := rf'
  obtain rfl : a = a' := h .x0
  obtain rfl : b = b' := h .x1
  obtain rfl : c = c' := h .x2
  rfl

@[simp] theorem read_index (rf : RegFile) (r : Reg) : rf.read r.index = .ok (rf.get r) := by simp [RegFile.read]

@[simp] theorem write_index (rf : RegFile) (r : Reg) (v : Word) : rf.write r.index v = .ok (rf.set r v) := by
  simp [RegFile.write]

theorem read_above {rf : RegFile} {n : Nat} (h : 2 < n) : rf.read n = .error .registerOutOfRange := by
  simp [RegFile.read, ofIndex_eq_none.2 h]

theorem write_above {rf : RegFile} {n : Nat} {v : Word} (h : 2 < n) : rf.write n v = .error .registerOutOfRange := by
  simp [RegFile.write, ofIndex_eq_none.2 h]

/-- What the three ordered writes of a Swap leave in each register, from the values before them (40_dataops.md R62): the
destination gets the old source, the source gets the old destination, and the temp the old source, except where the temp is
one of the two. -/
theorem swapRegs_get (rf : RegFile) (rd rs rt q : Reg) :
    (swapRegs rf rd rs rt).get q =
      if q = rd then (if rt = rs then rf.get rd else rf.get rs)
      else if q = rs then (if rt = rd then rf.get rs else rf.get rd)
      else if q = rt then rf.get rs
      else rf.get q := by
  simp only [swapRegs, get_set]
  cases q <;> cases rd <;> cases rs <;> cases rt <;> rfl

end Sys2Proof.Machine
end

