-- ==== Sys2Proof/Laws/Step.lean ====
section
/-! SUPPORT. What each shared operation of the cycle can do, said once (41_control.md R80; 10_state.md R31). -/

namespace Sys2Proof.Machine

@[simp] theorem finishCycle_raised (s : State) (k : FaultKind) : finishCycle s (.raised k) = .next (s.raise k none) := rfl

@[simp] theorem finishCycle_halt (s t : State) : finishCycle s (.done .halt t) = .next { t with status := .halted } := rfl

@[simp] theorem finishCycle_proceed (s t : State) :
    finishCycle s (.done .proceed t) = .next (t.setIp (t.ip + 1)) := rfl

/-- The end of a cycle always answers a next state, and one of three (41_control.md R82). -/
theorem finishCycle_cases {s t : State} {e : Executed} (h : finishCycle s e = .next t) :
    (∃ k, e = .raised k ∧ t = s.raise k none) ∨
    (∃ u, e = .done .halt u ∧ t = { u with status := .halted }) ∨
    (∃ u, e = .done .proceed u ∧ t = u.setIp (u.ip + 1)) := by
  match e with
  | .raised k => exact .inl ⟨k, rfl, by simpa using h.symm⟩
  | .done .halt u => exact .inr (.inl ⟨u, rfl, by simpa using h.symm⟩)
  | .done .proceed u => exact .inr (.inr ⟨u, rfl, by simpa using h.symm⟩)

theorem remUnit_zero (a : Word) : remUnit a 0#16 = .error .divisionByZero := by simp [remUnit]

theorem remUnit_of_ne {a b : Word} (h : b ≠ 0#16) : remUnit a b = .ok (a % b) := by simp [remUnit, h]

/-- Fetch and decode answer an instruction exactly where the word at ip decodes to it (cycle steps 1 and 2). -/
theorem fetchDecode_ok {s : State} {i : Instr} :
    fetchDecode s = .ok i ↔ ∃ w, fetch s.prog s.ip = some w ∧ decode w = .instr i := by
  unfold fetchDecode
  cases hf : fetch s.prog s.ip with
  | none => simp
  | some w =>
    cases hd : decode w with
    | instr j => simp [hd]
    | badOpcode op => simp [hd]

/-- Fetch and decode raise a fault exactly out of the program, or at a word of opcode 5 to 15, whose nibble they record. -/
theorem fetchDecode_error {s : State} {k : FaultKind} {op : Option Nibble} :
    fetchDecode s = .error (k, op) ↔
      (s.prog.length ≤ s.ip ∧ k = .fetchOutOfBounds ∧ op = none) ∨
      (∃ w, fetch s.prog s.ip = some w ∧ 5 ≤ w.toNat / 4096 ∧ k = .decodeError ∧ op = some (opcode w)) := by
  unfold fetchDecode
  cases hf : fetch s.prog s.ip with
  | none => simp [fetch_eq_none.1 hf, eq_comm]
  | some w =>
    have hlt : ¬ s.prog.length ≤ s.ip := Nat.not_le.2 (lt_length_of_fetch hf)
    cases hd : decode w with
    | instr i =>
      have h5 : ¬ 5 ≤ w.toNat / 4096 := fun h => by
        have := (decode_badOpcode (op := opcode w)).2 ⟨h, rfl⟩
        rw [hd] at this; cases this
      simp [hlt, h5, hd]
    | badOpcode b =>
      obtain ⟨h5, rfl⟩ := decode_badOpcode.1 hd
      simp [hlt, h5, hd, eq_comm]

@[simp] theorem step_of_halted {s : State} (h : s.status = .halted) : step s = .next s := by simp [step, h]

@[simp] theorem step_of_faulted {s : State} {k : FaultKind} (h : s.status = .faulted k) : step s = .next s := by
  simp [step, h]

/-- A running machine's step is one of these (41_control.md R80). -/
theorem step_of_running {s : State} (h : s.status = .running) :
    step s = match fetchDecode s with
      | .error (k, op) => .next (s.raise k op)
      | .ok i => exec i s := by
  rcases hf : fetchDecode s with ⟨k, op⟩ | i <;> simp [step, h, hf]

/-- The placed word is the instruction the next step runs. -/
theorem step_withFetchWord {s : State} {n w : Nat} {i : Instr} (h : decodeTableWord n w = some i) :
    step (s.withFetchWord n w) = exec i (s.withFetchWord n w) := by
  have hd : decode (tableWord n w) = .instr i := by
    unfold decodeTableWord at h
    cases hw : decode (tableWord n w) with
    | instr j => rw [hw] at h; cases h; rfl
    | badOpcode op => rw [hw] at h; cases h
  have : fetchDecode (s.withFetchWord n w) = .ok i :=
    fetchDecode_ok.2 ⟨tableWord n w, by simp, hd⟩
  rw [step_of_running (by simp), this]

end Sys2Proof.Machine
end

