-- ==== Sys2Proof/Tests/Slice0.lean ====
section
/-! SUPPORT. Tests: the checks of WellFormed on ill-formed terms, words written out from spec/30_encoding.md, one-cycle vectors
of spec/95_test_vectors.md (expected results copied from there), and for every statement with hypotheses a state that meets
them. -/

namespace Sys2Proof.Tests

open Sys2Proof Sys2Proof.Machine

/-! ### WellFormed refuses an ill-formed term at each check -/

theorem test_wf_load_register : (Instr.load 16 0).wellFormed = false := by decide
theorem test_wf_load_immediate : (Instr.load 0 256).wellFormed = false := by decide
theorem test_wf_swap_destination : (Instr.swap 16 0 0).wellFormed = false := by decide
theorem test_wf_swap_source : (Instr.swap 0 16 0).wellFormed = false := by decide
theorem test_wf_swap_temp : (Instr.swap 0 0 16).wellFormed = false := by decide
theorem test_wf_mod_dividend : (Instr.mod 16 0 0).wellFormed = false := by decide
theorem test_wf_mod_divisor : (Instr.mod 0 16 0).wellFormed = false := by decide
theorem test_wf_mod_destination : (Instr.mod 0 0 16).wellFormed = false := by decide
theorem test_wf_bez_register : (Instr.bez 16 0).wellFormed = false := by decide
theorem test_wf_bez_offset : (Instr.bez 0 256).wellFormed = false := by decide
theorem test_wf_bounds_admitted :
    (Instr.load 15 255).wellFormed = true ∧ (Instr.swap 15 15 15).wellFormed = true ∧
    (Instr.mod 15 15 15).wellFormed = true ∧ (Instr.bez 15 255).wellFormed = true ∧ Instr.halt.wellFormed = true := by decide

/-! ### Words written out from 30_encoding.md R50 and R53 -/

/-- `0000 xxxxxxxxxxxx`, the ignored bits set (R55). -/
theorem test_decode_halt : decode 0b0000101010111100#16 = .instr .halt := by decide
/-- `0001 dddd vvvvvvvv`: `Load 15 128` (95_test_vectors.md 2.6). -/
theorem test_decode_load : decode 0b0001111110000000#16 = .instr (.load 15 128) := by decide
/-- `0010 dddd ssss tttt`: `Swap 0 1 2`. -/
theorem test_decode_swap : decode 0b0010000000010010#16 = .instr (.swap 0 1 2) := by decide
/-- `0011 aaaa bbbb cccc`: `Mod 15 14 13`. -/
theorem test_decode_mod : decode 0b0011111111101101#16 = .instr (.mod 15 14 13) := by decide
/-- `0100 rrrr oooooooo`: `BEZ 10 255`. -/
theorem test_decode_bez : decode 0b0100101011111111#16 = .instr (.bez 10 255) := by decide
/-- Opcode 5, the first illegal one, and 15, the last (95_test_vectors.md W2). -/
theorem test_decode_illegal : decode 0x5000#16 = .badOpcode 5#4 ∧ decode 0xFFFF#16 = .badOpcode 15#4 := by decide
/-- Encodings of 95_test_vectors.md 2.1 to 2.4. -/
theorem test_encode :
    encode (.load 2 255) = 0x12FF#16 ∧ encode (.swap 2 0 1) = 0x2201#16 ∧ encode (.mod 1 0 2) = 0x3102#16 ∧
    encode (.bez 2 255) = 0x42FF#16 ∧ encode .halt = 0x0000#16 := by decide
/-- The written form of 30_encoding.md R57. -/
theorem test_render : (Instr.load 0 12).render = "Load 0 12" ∧ (Instr.bez 1 3).render = "BEZ 1 3" := by decide
/-- The opcode table's rows, as the host numbers them. -/
theorem test_table_rows :
    decodeTableWord 16 0x0000 = some .halt ∧ decodeTableWord 16 0x1000 = some (.load 0 0) ∧
    decodeTableWord 16 0x2000 = some (.swap 0 0 0) ∧ decodeTableWord 16 0x3000 = some (.mod 0 0 0) ∧
    decodeTableWord 16 0x4000 = some (.bez 0 0) ∧ decodeTableWord 16 0x5000 = none := by decide

/-! ### One cycle (95_test_vectors.md 2.1 to 2.5) -/

/-- The state before a vector: the registers, ip, and the word at ip with Halts before it. -/
def before (a b c : Word) (ip w : Nat) : State :=
  ({ State.reset with regs := { x0 := a, x1 := b, x2 := c }, ip := ip } : State).withFetchWord 16 w

/-- Registers, ip and status after one step. -/
def after (s : State) : Option (RegFile × Nat × RunStatus) :=
  match step s with
  | .next t => some (t.regs, t.ip, t.status)
  | .fault _ => none
  | .refused _ => none

/-- The fault record after one step. -/
def recordAfter (s : State) : Option FaultRecord :=
  match step s with
  | .next t => t.fault
  | .fault _ => none
  | .refused _ => none

theorem test_load_largest : after (before 1 2 3 0 0x12FF) = some (⟨1, 2, 255⟩, 1, .running) := by decide
theorem test_load_bad_index :
    after (before 1 2 3 0 0x1301) = some (⟨1, 2, 3⟩, 0, .faulted .registerOutOfRange) := by decide
theorem test_swap_distinct : after (before 5 9 7 0 0x2201) = some (⟨7, 5, 5⟩, 1, .running) := by decide
theorem test_swap_temp_is_destination : after (before 5 9 7 0 0x2010) = some (⟨9, 9, 7⟩, 1, .running) := by decide
theorem test_mod_destination_is_divisor : after (before 17 5 0 0 0x3011) = some (⟨17, 2, 0⟩, 1, .running) := by decide
theorem test_mod_bad_index_before_zero_divisor :
    after (before 15 0 0 0 0x3013) = some (⟨15, 0, 0⟩, 0, .faulted .registerOutOfRange) := by decide
theorem test_bez_offset_is_ip : after (before 0 0 0 3 0x4103) = some (⟨0, 0, 0⟩, 1, .running) := by decide
theorem test_bez_offset_is_ip_plus_one :
    after (before 0 0 0 3 0x4104) = some (⟨0, 0, 0⟩, 3, .faulted .ipUnderflow) := by decide
theorem test_halt_ignored_bits : after (before 7 8 9 0 0x0ABC) = some (⟨7, 8, 9⟩, 0, .halted) := by decide
theorem test_illegal_opcode_record :
    recordAfter (before 1 1 1 2 0xFFFF) = some { kind := .decodeError, fip := 2, fopcode := some 15#4 } := by decide
theorem test_fetch_empty_program :
    after State.reset = some (⟨0, 0, 0⟩, 0, .faulted .fetchOutOfBounds) ∧
    recordAfter State.reset = some { kind := .fetchOutOfBounds, fip := 0, fopcode := none } := by decide
/-- The codes of 60_exceptions.md R90 and of 10_state.md R26, and the categories of R91. -/
theorem test_codes :
    [FaultKind.fetchOutOfBounds, .decodeError, .registerOutOfRange, .divisionByZero, .ipUnderflow].map FaultKind.code =
      [1, 2, 3, 4, 5] ∧
    [RunStatus.running, .halted, .faulted .decodeError].map RunStatus.code = [0, 1, 2] ∧
    [FaultKind.fetchOutOfBounds, .decodeError, .registerOutOfRange, .divisionByZero, .ipUnderflow].map FaultKind.category =
      [.fetchError, .decodeError, .execError, .execError, .execError] := by decide
/-- The registers a program has to itself: no step reads a stale result (program P2's second Mod, 95_test_vectors.md). -/
theorem test_mod_ordinary : after (before 12 15 12 3 0x3120) = some (⟨3, 15, 12⟩, 4, .running) := by decide

/-! ### Witnesses: a state that meets the hypotheses of each statement, for each clause, at a boundary value -/

/-- The first and the last word of every row of the opcode map. -/
theorem witness_DecodeFollowsOpcodeMap :
    (0x0000#16).toNat ≤ 0x0FFF ∧ (0x0FFF#16).toNat = 0x0FFF ∧
    (0x1000#16).toNat = 0x1000 ∧ (0x1FFF#16).toNat = 0x1FFF ∧ (0x2000#16).toNat = 0x2000 ∧ (0x2FFF#16).toNat = 0x2FFF ∧
    (0x3000#16).toNat = 0x3000 ∧ (0x3FFF#16).toNat = 0x3FFF ∧ (0x4000#16).toNat = 0x4000 ∧ (0x4FFF#16).toNat = 0x4FFF ∧
    0x5000 ≤ (0x5000#16).toNat ∧ 0x5000 ≤ (0xFFFF#16).toNat := by decide

theorem witness_DecodeOfEncodeIsIdentity : (Instr.load 15 255).wellFormed = true := by decide

theorem witness_EncodeOfDecodeIsIdentity :
    decode 0x1000#16 = .instr (.load 0 0) ∧ 0x1000 ≤ (0x1000#16).toNat ∧
    decode 0x0FFF#16 = .instr .halt ∧ (0x0FFF#16).toNat < 0x1000 := by decide

theorem witness_StepRunsDecodedInstruction :
    (before 12 15 0 0 0x3012).status = .running ∧
    (before 12 15 0 0 0x3012).prog[(before 12 15 0 0 0x3012).ip]? = some 0x3012#16 ∧
    decode 0x3012#16 = .instr (.mod 0 1 2) := by decide

theorem witness_FetchAndDecodeFaults :
    State.reset.status = .running ∧ State.reset.prog.length ≤ State.reset.ip ∧
    (before 0 0 0 0 0x5000).status = .running ∧
    (before 0 0 0 0 0x5000).prog[(before 0 0 0 0 0x5000).ip]? = some 0x5000#16 ∧ 0x5000 ≤ (0x5000#16).toNat := by decide

/-- One step halts, one step faults, no step runs on. -/
theorem witness_RunEndsAtFirstFinishedState :
    (∃ t, reaches 1 (before 0 0 0 0 0x0000) t ∧ t.status = .halted) ∧
    (∃ t, reaches 1 State.reset t ∧ t.status = .faulted .fetchOutOfBounds) ∧
    (∃ t, reaches 0 State.reset t ∧ t.status = .running) := ⟨⟨_, rfl, rfl⟩, ⟨_, rfl, rfl⟩, ⟨_, rfl, rfl⟩⟩

/-- A BEZ taken, a BEZ not taken, an underflow, a Halt, and an instruction that is no BEZ. -/
theorem witness_ControlMultiplexerRows :
    (before 0 0 0 2 0x4002).status = .running ∧
    (∃ t, step (before 0 0 0 2 0x4002) = .next t ∧ t.status = .running) ∧
    (∃ t, step (before 7 0 0 2 0x4002) = .next t ∧ t.status = .running ∧
      (before 7 0 0 2 0x4002).fetches (.bez Reg.x0.index 2) ∧ (before 7 0 0 2 0x4002).reg .x0 ≠ 0#16) ∧
    (∃ t, step (before 0 0 0 2 0x4003) = .next t ∧ t.status = .faulted .ipUnderflow) ∧
    (∃ t, step (before 0 0 0 2 0x0000) = .next t ∧ t.status = .halted) ∧
    (∃ t, step (before 0 0 0 2 0x1000) = .next t ∧ t.status = .running ∧ ∀ r o, ¬ (before 0 0 0 2 0x1000).fetches (.bez r o)) := by
  refine ⟨rfl, ⟨_, rfl, rfl⟩, ⟨_, rfl, rfl, ⟨0x4002#16, rfl, by decide⟩, by decide⟩, ⟨_, rfl, rfl⟩, ⟨_, rfl, rfl⟩,
    ⟨_, rfl, rfl, ?_⟩⟩
  rintro r o ⟨w, hw, hd⟩
  obtain rfl : 0x1000#16 = w := Option.some.inj hw
  exact absurd hd (by simp [show decode 0x1000#16 = .instr (.load 0 0) by decide])

/-- Each of the five conditions is met by some running state. -/
theorem witness_FaultExactlyOnItsCondition :
    State.reset.status = .running ∧ State.reset.faultCondition .fetchOutOfBounds ∧
    (before 0 0 0 0 0x5000).faultCondition .decodeError ∧
    (before 0 0 0 0 0x1300).faultCondition .registerOutOfRange ∧
    (before 0 0 0 0 0x3012).faultCondition .divisionByZero ∧
    (before 0 0 0 0 0x4001).faultCondition .ipUnderflow := by
  refine ⟨rfl, by simp [State.faultCondition, State.reset], ⟨0x5000#16, rfl, by decide⟩,
    ⟨.load 3 0, ⟨0x1300#16, rfl, by decide⟩, 3, by decide, by decide⟩,
    ⟨.x0, .x1, .x2, ⟨0x3012#16, rfl, by decide⟩, rfl⟩, ⟨.x0, 1, ⟨0x4001#16, rfl, by decide⟩, rfl, by decide⟩⟩

theorem witness_HaltsExactlyAtHaltWords :
    (before 3 0 12 5 0x0FFF).status = .running ∧
    (before 3 0 12 5 0x0FFF).prog[(before 3 0 12 5 0x0FFF).ip]? = some 0x0FFF#16 ∧ (0x0FFF#16).toNat ≤ 0x0FFF := by decide

theorem witness_FaultChangesOnlyStatusAndRecord :
    (before 15 0 0 0 0x3012).status = .running ∧
    ∃ t, step (before 15 0 0 0 0x3012) = .next t ∧ t.status = .faulted .divisionByZero := ⟨rfl, _, rfl, rfl⟩

theorem witness_LoadWritesImmediate : 255 < 256 ∧ ∃ t, exec (.load Reg.x2.index 255) State.reset = .next t :=
  ⟨by decide, _, rfl⟩

/-- Each aliasing case of a Swap occurs. -/
theorem witness_SwapInEveryAliasingCase :
    (Reg.x0 ≠ Reg.x1 ∧ Reg.x2 ≠ Reg.x0 ∧ Reg.x2 ≠ Reg.x1) ∧ (Reg.x0 = Reg.x0 ∧ Reg.x1 ≠ Reg.x0) ∧
    ∃ t, exec (.swap Reg.x0.index Reg.x1.index Reg.x2.index) State.reset = .next t := ⟨by decide, by decide, _, rfl⟩

theorem witness_ModWritesRemainder :
    (before 65535 65534 0 0 0x3012).reg .x1 ≠ 0#16 ∧
    ∃ t, exec (.mod Reg.x0.index Reg.x1.index Reg.x2.index) (before 65535 65534 0 0 0x3012) = .next t := ⟨by decide, _, rfl⟩

theorem witness_ModByZeroFaults : State.reset.reg .x1 = 0#16 := by decide

/-- Not taken; taken with offset equal to ip; taken with offset ip + 1. -/
theorem witness_BezBranchesBackOnZero :
    (before 7 0 0 2 0x4002).reg .x0 ≠ 0#16 ∧
    ((before 0 0 0 3 0x4103).reg .x1 = 0#16 ∧ 3 ≤ (before 0 0 0 3 0x4103).ip) ∧
    ((before 0 0 0 3 0x4104).reg .x1 = 0#16 ∧ (before 0 0 0 3 0x4104).ip < 4) := by decide

theorem witness_BadRegisterFieldFaults :
    (∃ f ∈ (Instr.load 3 1).regFields, 2 < f) ∧ (∃ f ∈ (Instr.swap 0 1 3).regFields, 2 < f) ∧
    (∃ f ∈ (Instr.mod 0 1 3).regFields, 2 < f) ∧ (∃ f ∈ (Instr.bez 3 0).regFields, 2 < f) := by decide

theorem witness_BadRegisterFieldDecodesThenFaults :
    (Instr.swap 0 1 3).wellFormed = true ∧ (∃ f ∈ (Instr.swap 0 1 3).regFields, 2 < f) ∧
    decode 0x2013#16 = .instr (.swap 0 1 3) ∧
    (before 5 9 7 0 0x2013).status = .running ∧
    (before 5 9 7 0 0x2013).prog[(before 5 9 7 0 0x2013).ip]? = some 0x2013#16 := by decide

theorem witness_RemainderUnitIsNaturalRemainder : (1#16 : Word) ≠ 0#16 := by decide

theorem witness_ModKeepsGcd : Reg.x0 ≠ Reg.x1 ∧ (before 48 36 0 0 0x3010).reg .x1 ≠ 0#16 := by decide

theorem witness_InstructionFrame :
    (∃ t, exec (.load 0 12) State.reset = .next t) ∧ (∃ t, exec .halt State.reset = .next t) ∧
    (∃ t, exec (.swap 0 1 2) State.reset = .next t) ∧ (∃ t, exec (.bez 0 0) State.reset = .next t) ∧
    (∃ t, exec (.mod 0 1 2) (before 12 15 0 0 0x3012) = .next t) :=
  ⟨⟨_, rfl⟩, ⟨_, rfl⟩, ⟨_, rfl⟩, ⟨_, rfl⟩, ⟨_, rfl⟩⟩

/-- Two running states that agree on what `Mod 0 1 2` reads and differ in `x[2]`, which it does not read. -/
theorem witness_OnlyReadRegistersMatter :
    (before 12 15 0 0 0x3012).status = .running ∧ (before 12 15 9 0 0x3012).status = .running ∧
    (before 12 15 0 0 0x3012).fault = (before 12 15 9 0 0x3012).fault ∧
    (before 12 15 0 0 0x3012).ip = (before 12 15 9 0 0x3012).ip ∧
    agreeOn (Instr.mod 0 1 2).reads (before 12 15 0 0 0x3012) (before 12 15 9 0 0x3012) ∧
    (∃ t, exec (.mod 0 1 2) (before 12 15 0 0 0x3012) = .next t ∧ ∀ kind, t.status ≠ .faulted kind) ∧
    (∃ t, exec (.mod 0 1 2) (before 12 15 9 0 0x3012) = .next t) := by
  refine ⟨rfl, rfl, rfl, rfl, ?_, ⟨_, rfl, fun k h => nomatch h⟩, ⟨_, rfl⟩⟩
  intro r
  cases r <;> decide

/-- Two programs that differ beyond ip. -/
theorem witness_StepReadsOnlyWordAtIp :
    [0x3012#16, 0xFFFF#16][(before 12 15 0 0 0x3012).ip]? =
      (before 12 15 0 0 0x3012).prog[(before 12 15 0 0 0x3012).ip]? ∧
    ∃ t, step (before 12 15 0 0 0x3012) = .next t := ⟨by decide, _, rfl⟩

theorem witness_ProgramIsNeverWritten :
    (∃ t, reaches 1 (before 0 0 0 0 0x100C) t) ∧
    ∃ t, hostMove (.construct [0#16]) State.reset = .next t ∧ t.prog ≠ State.reset.prog := ⟨⟨_, rfl⟩, _, rfl, by decide⟩

/-- The invariant is met, and each host move answers. -/
theorem witness_EveryHostMoveKeepsInvariant :
    State.reset.Inv ∧ (∃ t, hostMove .step State.reset = .next t) ∧ (∃ t, hostMove .reset State.reset = .next t) ∧
    ∃ t, hostMove (.construct [0#16]) State.reset = .next t := by
  refine ⟨⟨by decide, fun _ => rfl, ?_, ?_, ?_⟩, ⟨_, rfl⟩, ⟨_, rfl⟩, ⟨_, rfl⟩⟩
  · intro k h; exact nomatch h
  · intro h; exact nomatch h
  · intro k h; exact nomatch h

/-- The largest value a Load can write. -/
theorem witness_NoStepMakesValueAboveByte :
    (before 255 255 255 0 0x12FF).bytesInRegs ∧ ∃ t, step (before 255 255 255 0 0x12FF) = .next t := by
  refine ⟨?_, _, rfl⟩
  intro r
  cases r <;> decide

/-- The tightest width: one word in a 1-bit ip register. -/
theorem witness_IpNeverLeavesItsWidth :
    Config.ipWidthFits 1 (before 0 0 0 0 0x1001).prog.length ∧
    (before 0 0 0 0 0x1001).ip ≤ (before 0 0 0 0 0x1001).prog.length ∧
    ∃ t, reaches 1 (before 0 0 0 0 0x1001) t := ⟨by decide, by decide, _, rfl⟩

/-- A two-bit ip register at the last of three words. -/
def narrow : BlockState 2 where
  regs := ⟨0, 7, 0⟩
  ip := 2#2
  status := .running
  fault := none
  prog := [0x1107#16, 0x2120#16, 0x4002#16]

theorem witness_BlocksRefineCycle :
    Config.ipWidthFits 2 narrow.prog.length ∧ narrow.ip.toNat ≤ narrow.prog.length := by decide

/-- The blocks take the branch of program P3 (95_test_vectors.md): `BEZ 0 2` at ip 2 goes to 1. -/
theorem test_blocks_branch : narrow.cycle.ip = 1#2 ∧ narrow.cycle.status = .running := by decide

theorem witness_BranchFreeProgramEnds :
    branchFree (before 0 0 0 0 0x1001).prog ∧ (before 0 0 0 0 0x1001).status = .running ∧
    (before 0 0 0 0 0x1001).ip ≤ (before 0 0 0 0 0x1001).prog.length := by
  refine ⟨?_, by decide, by decide⟩
  intro w hw r o
  obtain rfl : w = 0x1001#16 := List.mem_singleton.1 hw
  simp [show decode 0x1001#16 = .instr (.load 0 1) by decide]

theorem witness_FieldsAreShiftsAndMasks :
    decode 0x110F#16 = .instr (.load 1 15) ∧ decode 0x2012#16 = .instr (.swap 0 1 2) ∧
    decode 0x3FED#16 = .instr (.mod 15 14 13) ∧ decode 0x4AFF#16 = .instr (.bez 10 255) := by decide

/-- `BEZ 1 1` at ip 1, the smallest ip at which offset 1 is no underflow. -/
theorem witness_SelfBranchNeverEnds :
    (before 0 0 0 1 0x4101).status = .running ∧ (before 0 0 0 1 0x4101).fetches (.bez Reg.x1.index 1) ∧
    (before 0 0 0 1 0x4101).reg .x1 = 0#16 ∧ 1 ≤ (before 0 0 0 1 0x4101).ip :=
  ⟨rfl, ⟨0x4101#16, rfl, by decide⟩, rfl, by decide⟩

end Sys2Proof.Tests
end

/-! PROOFS. The statements of 00_scope.md: a Mod over its own dividend keeps the greatest common divisor, and ip stays
within the program, so within any register the program fits (R1, R6). -/

namespace Sys2Proof.Machine

/-! ### Mod -/

/-- `Mod` with a non-zero divisor: the remainder goes to the destination and ip to the next word (40_dataops.md R63). -/
theorem exec_mod_of_ne {s : State} (a c : Reg) {b : Reg} (hb : s.reg b ≠ 0#16) :
    exec (.mod a.index b.index c.index) s = .next ((s.setReg c (s.reg a % s.reg b)).setIp (s.ip + 1)) := by
  simp [exec, execMod, remUnit_of_ne hb]

/-- Settles O23: the divisor keeps its value, and Euclid's step replaces the dividend by its remainder. -/
theorem modKeepsGcd : Obligations.ModKeepsGcd := by
  intro s a b hab hb
  refine ⟨_, exec_mod_of_ne a a hb, ?_⟩
  rw [setIp_reg, setIp_reg, setReg_reg_same, setReg_reg_other hab.symm, BitVec.toNat_umod, ← Nat.gcd_rec, Nat.gcd_comm]

/-! ### Where one step can go -/

/-- What executing an instruction can do: raise a fault, halt, or go on with ip at most one word further. -/
theorem exec_next_cases {i : Instr} {s t : State} (h : exec i s = .next t) :
    (∃ k, t = s.raise k none) ∨
    (i = .halt ∧ t = { s with status := .halted }) ∨
    (∃ rf ip, ip ≤ s.ip + 1 ∧ t = { s with regs := rf, ip := ip }) := by
  cases i with
  | halt =>
    rw [exec, execHalt, finishCycle_halt] at h
    cases h
    exact .inr (.inl ⟨rfl, rfl⟩)
  | load d v =>
    rw [exec, execLoad] at h
    split at h <;> cases h
    · exact .inl ⟨_, rfl⟩
    · exact .inr (.inr ⟨_, _, le_rfl, rfl⟩)
  | swap d src tmp =>
    rw [exec, execSwap] at h
    split at h <;> cases h
    · exact .inl ⟨_, rfl⟩
    · exact .inr (.inr ⟨_, _, le_rfl, rfl⟩)
  | mod a b c =>
    rw [exec, execMod] at h
    split at h
    · cases h
      exact .inl ⟨_, rfl⟩
    · split at h <;> cases h
      · exact .inl ⟨_, rfl⟩
      · exact .inr (.inr ⟨_, _, le_rfl, rfl⟩)
  | bez r o =>
    rw [exec, execBez] at h
    split at h
    · cases h
      exact .inl ⟨_, rfl⟩
    · split at h
      · cases h
        exact .inr (.inr ⟨_, _, le_rfl, rfl⟩)
      · split at h <;> cases h
        · exact .inl ⟨_, rfl⟩
        · exact .inr (.inr ⟨_, _, Nat.succ_le_succ (Nat.sub_le s.ip o), rfl⟩)

/-- What a step can do: nothing, raise a fault, or run the instruction at ip. -/
theorem step_next_cases {s t : State} (h : step s = .next t) :
    t = s ∨ (∃ k op, t = s.raise k op) ∨ ∃ i, s.fetches i ∧ exec i s = .next t := by
  cases hs : s.status with
  | halted =>
    rw [step_of_halted hs] at h
    cases h
    exact .inl rfl
  | faulted k =>
    rw [step_of_faulted hs] at h
    cases h
    exact .inl rfl
  | running =>
    rw [step_of_running hs] at h
    split at h
    · cases h
      exact .inr (.inl ⟨_, _, rfl⟩)
    · next i hi => exact .inr (.inr ⟨i, fetchDecode_ok.1 hi, h⟩)

theorem exec_prog {i : Instr} {s t : State} (h : exec i s = .next t) : t.prog = s.prog := by
  obtain ⟨k, rfl⟩ | ⟨-, rfl⟩ | ⟨rf, ip, -, rfl⟩ := exec_next_cases h <;> rfl

theorem exec_ip_le {i : Instr} {s t : State} (h : exec i s = .next t) : t.ip ≤ s.ip + 1 := by
  obtain ⟨k, rfl⟩ | ⟨-, rfl⟩ | ⟨rf, ip, hip, rfl⟩ := exec_next_cases h
  · exact Nat.le_succ _
  · exact Nat.le_succ _
  · exact hip

/-- No step writes the program (20_memory.md R41). -/
theorem step_prog {s t : State} (h : step s = .next t) : t.prog = s.prog := by
  obtain rfl | ⟨k, op, rfl⟩ | ⟨i, -, hi⟩ := step_next_cases h
  · rfl
  · rfl
  · exact exec_prog hi

/-- ip stays at most `PROG_LEN` (10_state.md R25): it moves only after a fetch, which found it below. -/
theorem step_keeps_ip_le_length {s t : State} (hs : s.ip ≤ s.prog.length) (h : step s = .next t) :
    t.ip ≤ t.prog.length := by
  rw [step_prog h]
  obtain rfl | ⟨k, op, rfl⟩ | ⟨i, ⟨w, hw, -⟩, hi⟩ := step_next_cases h
  · exact hs
  · exact hs
  · have hlt := lt_length_of_fetch hw
    exact (exec_ip_le hi).trans hlt

/-! ### Runs of any length -/

theorem reaches_zero {s t : State} : reaches 0 s t ↔ s = t := ⟨Host.Outcome.next.inj, congrArg _⟩

theorem reaches_succ {n : Nat} {s t : State} : reaches (n + 1) s t ↔ ∃ u, step s = .next u ∧ reaches n u t := by
  change (core.run (n + 1) s = .next t) ↔ ∃ u, core.step s = .next u ∧ core.run n u = .next t
  cases hu : core.step s <;> simp [Host.Core.run, hu]

/-- What every step keeps holds after a run of any length. -/
theorem reaches_keeps {P : State → Prop} (hstep : ∀ {s t}, P s → step s = .next t → P t) {n : Nat} {s t : State}
    (hs : P s) (h : reaches n s t) : P t := by
  induction n generalizing s with
  | zero => exact reaches_zero.1 h ▸ hs
  | succ n ih =>
    obtain ⟨u, hu, hrest⟩ := reaches_succ.1 h
    exact ih (hstep hs hu) hrest

/-- No run writes the program (20_memory.md R41). -/
theorem reaches_prog {n : Nat} {s t : State} (h : reaches n s t) : t.prog = s.prog :=
  reaches_keeps (P := fun u => u.prog = s.prog) (fun hu hstep => (step_prog hstep).trans hu) rfl h

/-- Settles O32: ip stays at most `PROG_LEN`, and `PROG_LEN` itself fits the register. -/
theorem ipNeverLeavesItsWidth : Obligations.IpNeverLeavesItsWidth := by
  intro ipW n s t hfits hs h
  have hip : t.ip ≤ t.prog.length :=
    reaches_keeps (P := fun u => u.ip ≤ u.prog.length) step_keeps_ip_le_length hs h
  have hlen : t.prog.length ≤ 2 ^ ipW - 1 := (reaches_prog h).symm ▸ hfits
  exact ⟨hip, (hip.trans hlen).trans_lt (Nat.sub_one_lt_of_lt (Nat.two_pow_pos ipW))⟩

end Sys2Proof.Machine

/-! PROOFS. The statements of 10_state.md: what construction and reset leave, the invariant every host move keeps, the frame
of every instruction and what it reads, and the blocks against the cycle (R20 to R32). They rest on one relation, `Effect`,
that says what executing an instruction does, case by case. -/

namespace Sys2Proof.Machine

/-! ### Register fields above 2 (R22; 40_dataops.md R60) -/

@[simp] theorem badField_halt : ¬ ∃ f ∈ Instr.halt.regFields, 2 < f := by simp [Instr.regFields]

@[simp] theorem badField_load {d v : Nat} : (∃ f ∈ (Instr.load d v).regFields, 2 < f) ↔ 2 < d := by
  simp [Instr.regFields]

@[simp] theorem badField_swap {d src tmp : Nat} :
    (∃ f ∈ (Instr.swap d src tmp).regFields, 2 < f) ↔ 2 < d ∨ 2 < src ∨ 2 < tmp := by simp [Instr.regFields]

@[simp] theorem badField_mod {a b c : Nat} :
    (∃ f ∈ (Instr.mod a b c).regFields, 2 < f) ↔ 2 < a ∨ 2 < b ∨ 2 < c := by simp [Instr.regFields]

@[simp] theorem badField_bez {r o : Nat} : (∃ f ∈ (Instr.bez r o).regFields, 2 < f) ↔ 2 < r := by
  simp [Instr.regFields]

/-- An index that is not above 2 names a register. -/
theorem exists_index_eq {n : Nat} (h : ¬ 2 < n) : ∃ r : Reg, n = r.index := by
  cases hr : Reg.ofIndex n with
  | none => exact absurd (ofIndex_eq_none.1 hr) h
  | some r => exact ⟨r, ofIndex_eq_some.1 hr⟩

/-- One field above 2 is enough, and every other check comes after it (60_exceptions.md R93). -/
theorem exec_badField {i : Instr} (h : ∃ f ∈ i.regFields, 2 < f) (s : State) :
    exec i s = .next (s.raise .registerOutOfRange none) := by
  cases i with
  | halt => exact absurd h badField_halt
  | load d v => simp [exec, execLoad, ofIndex_eq_none.2 (badField_load.1 h)]
  | swap d src tmp => simp [exec, execSwap, ofIndices_eq_none.2 (badField_swap.1 h)]
  | mod a b c => simp [exec, execMod, ofIndices_eq_none.2 (badField_mod.1 h)]
  | bez r o => simp [exec, execBez, ofIndex_eq_none.2 (badField_bez.1 h)]

/-- Settles O20, with the fault written out as the state `State.raise` leaves. -/
theorem badRegisterFieldFaults : Obligations.BadRegisterFieldFaults := fun s _ h => exec_badField h s

/-! ### What executing an instruction does -/

variable {s t : State} {i : Instr}

theorem exec_halt (s : State) : exec .halt s = .next { s with status := .halted } := rfl

theorem exec_load (s : State) (d : Reg) (v : Nat) :
    exec (.load d.index v) s = .next ((s.setReg d (zext16 v)).setIp (s.ip + 1)) := by
  simp [exec, execLoad]

theorem exec_swap (s : State) (d src tmp : Reg) :
    exec (.swap d.index src.index tmp.index) s =
      .next { s with regs := swapRegs s.regs d src tmp, ip := s.ip + 1 } := by
  simp [exec, execSwap, State.setIp]

theorem exec_mod_zero {b : Reg} (a c : Reg) (hb : s.reg b = 0#16) :
    exec (.mod a.index b.index c.index) s = .next (s.raise .divisionByZero none) := by
  simp [exec, execMod, hb, remUnit_zero]

theorem exec_bez_notTaken {r : Reg} (o : Nat) (hr : s.reg r ≠ 0#16) :
    exec (.bez r.index o) s = .next (s.setIp (s.ip + 1)) := by
  simp [exec, execBez, branchTaken, hr]

theorem exec_bez_taken {r : Reg} {o : Nat} (hr : s.reg r = 0#16) (ho : o ≤ s.ip) :
    exec (.bez r.index o) s = .next (s.setIp (s.ip - o + 1)) := by
  simp [exec, execBez, branchTaken, branchUnderflows, hr, Nat.not_lt.2 ho, State.setIp]

theorem exec_bez_underflow {r : Reg} {o : Nat} (hr : s.reg r = 0#16) (ho : s.ip < o) :
    exec (.bez r.index o) s = .next (s.raise .ipUnderflow none) := by
  simp [exec, execBez, branchTaken, branchUnderflows, hr, ho]

/-- Executing `i` in `s` leaves `t`: one constructor for each way an instruction can end (40_dataops.md R60 to R63;
41_control.md R83, R86). `exec_eq_next` says that it is `exec`. -/
inductive Effect (s : State) : Instr → State → Prop
  | badField {i : Instr} (h : ∃ f ∈ i.regFields, 2 < f) : Effect s i (s.raise .registerOutOfRange none)
  | halt : Effect s .halt { s with status := .halted }
  | load (d : Reg) (v : Nat) : Effect s (.load d.index v) ((s.setReg d (zext16 v)).setIp (s.ip + 1))
  | swap (d src tmp : Reg) :
      Effect s (.swap d.index src.index tmp.index) { s with regs := swapRegs s.regs d src tmp, ip := s.ip + 1 }
  | mod (a b c : Reg) (hb : s.reg b ≠ 0#16) :
      Effect s (.mod a.index b.index c.index) ((s.setReg c (s.reg a % s.reg b)).setIp (s.ip + 1))
  | modZero (a b c : Reg) (hb : s.reg b = 0#16) :
      Effect s (.mod a.index b.index c.index) (s.raise .divisionByZero none)
  | bezNotTaken (r : Reg) (o : Nat) (hr : s.reg r ≠ 0#16) : Effect s (.bez r.index o) (s.setIp (s.ip + 1))
  | bezTaken (r : Reg) (o : Nat) (hr : s.reg r = 0#16) (ho : o ≤ s.ip) :
      Effect s (.bez r.index o) (s.setIp (s.ip - o + 1))
  | bezUnderflow (r : Reg) (o : Nat) (hr : s.reg r = 0#16) (ho : s.ip < o) :
      Effect s (.bez r.index o) (s.raise .ipUnderflow none)

theorem Effect.exec_eq (h : Effect s i t) : exec i s = .next t := by
  cases h with
  | badField h => exact exec_badField h s
  | halt => exact exec_halt s
  | load d v => exact exec_load s d v
  | swap d src tmp => exact exec_swap s d src tmp
  | mod a b c hb => exact exec_mod_of_ne a c hb
  | modZero a b c hb => exact exec_mod_zero a c hb
  | bezNotTaken r o hr => exact exec_bez_notTaken o hr
  | bezTaken r o hr ho => exact exec_bez_taken hr ho
  | bezUnderflow r o hr ho => exact exec_bez_underflow hr ho

/-- The cases of `Effect` leave out no state and no instruction. -/
theorem exists_effect (i : Instr) (s : State) : ∃ t, Effect s i t := by
  by_cases hbad : ∃ f ∈ i.regFields, 2 < f
  · exact ⟨_, .badField hbad⟩
  cases i with
  | halt => exact ⟨_, .halt⟩
  | load d v =>
    obtain ⟨d, rfl⟩ := exists_index_eq (mt badField_load.2 hbad)
    exact ⟨_, .load d v⟩
  | swap d src tmp =>
    simp only [badField_swap, not_or] at hbad
    obtain ⟨hd, hsrc, htmp⟩ := hbad
    obtain ⟨d, rfl⟩ := exists_index_eq hd
    obtain ⟨src, rfl⟩ := exists_index_eq hsrc
    obtain ⟨tmp, rfl⟩ := exists_index_eq htmp
    exact ⟨_, .swap d src tmp⟩
  | mod a b c =>
    simp only [badField_mod, not_or] at hbad
    obtain ⟨ha, hb, hc⟩ := hbad
    obtain ⟨a, rfl⟩ := exists_index_eq ha
    obtain ⟨b, rfl⟩ := exists_index_eq hb
    obtain ⟨c, rfl⟩ := exists_index_eq hc
    by_cases hzero : s.reg b = 0#16
    · exact ⟨_, .modZero a b c hzero⟩
    · exact ⟨_, .mod a b c hzero⟩
  | bez r o =>
    obtain ⟨r, rfl⟩ := exists_index_eq (mt badField_bez.2 hbad)
    by_cases hzero : s.reg r = 0#16
    · by_cases ho : o ≤ s.ip
      · exact ⟨_, .bezTaken r o hzero ho⟩
      · exact ⟨_, .bezUnderflow r o hzero (Nat.lt_of_not_le ho)⟩
    · exact ⟨_, .bezNotTaken r o hzero⟩

/-- `Effect` is `exec`. -/
theorem exec_eq_next : exec i s = .next t ↔ Effect s i t := by
  refine ⟨fun h => ?_, Effect.exec_eq⟩
  obtain ⟨u, hu⟩ := exists_effect i s
  have htu : t = u := Host.Outcome.next.inj (h.symm.trans hu.exec_eq)
  exact htu ▸ hu

/-! ### Runs always answer -/

theorem exists_step (s : State) : ∃ t, step s = .next t := by
  cases hs : s.status with
  | halted => exact ⟨s, step_of_halted hs⟩
  | faulted k => exact ⟨s, step_of_faulted hs⟩
  | running =>
    rw [step_of_running hs]
    rcases fetchDecode s with ⟨k, op⟩ | i
    · exact ⟨_, rfl⟩
    · obtain ⟨t, ht⟩ := exists_effect i s
      exact ⟨t, ht.exec_eq⟩

/-- Settles O8, by induction on the number of steps. -/
theorem everyRunAnswersNextStates : Obligations.EveryRunAnswersNextStates := by
  intro n
  induction n with
  | zero => exact fun s => ⟨s, reaches_zero.2 rfl⟩
  | succ n ih =>
    intro s
    obtain ⟨u, hu⟩ := exists_step s
    obtain ⟨t, ht⟩ := ih u
    exact ⟨t, reaches_succ.2 ⟨u, hu, ht⟩⟩

/-! ### The invariant (R25, R27) -/

/-- A running machine meets the invariant with ip in range and no record. -/
theorem inv_of_running (hip : s.ip ≤ s.prog.length) (hs : s.status = .running) (hf : s.fault = none) : s.Inv where
  ip_le_length := hip
  no_record _ := hf
  record k h := by simp [hs] at h
  halted_at h := by simp [hs] at h
  faulted_at k h := by simp [hs] at h

/-- Halting at a Halt word keeps the invariant of a running machine (41_control.md R86). -/
theorem inv_halted (hip : s.ip ≤ s.prog.length) (hf : s.fault = none) (hw : s.fetches .halt) :
    State.Inv { s with status := .halted } where
  ip_le_length := hip
  no_record _ := hf
  record _ h := nomatch h
  halted_at _ := hw
  faulted_at _ h := nomatch h

/-- A fault under its own condition and with its own record establishes the invariant (60_exceptions.md R92). -/
theorem inv_raise {k : FaultKind} (hip : s.ip ≤ s.prog.length) (hc : s.faultCondition k) :
    (s.raise k (s.recordFor k).fopcode).Inv where
  ip_le_length := hip
  no_record h := absurd rfl (h k)
  record _ h := by cases h; rfl
  halted_at h := nomatch h
  faulted_at _ h := by cases h; exact hc

/-- What the step of a running machine can do, with the reason: fault on the condition of the kind and with its record, halt at a
Halt word, or go on to an ip inside the program or at its end (R25; 41_control.md R80; 60_exceptions.md R90, R92). -/
theorem step_running_cases (hs : s.status = .running) (h : step s = .next t) :
    (∃ k, s.faultCondition k ∧ t = s.raise k (s.recordFor k).fopcode) ∨
    (s.fetches .halt ∧ t = { s with status := .halted }) ∨
    (∃ rf ip, ip ≤ s.prog.length ∧ t = { s with regs := rf, ip := ip }) := by
  rw [step_of_running hs] at h
  rcases hfd : fetchDecode s with ⟨k, op⟩ | i <;> rw [hfd] at h
  · cases h
    obtain ⟨hlen, rfl, rfl⟩ | ⟨w, hw, h5, rfl, rfl⟩ := fetchDecode_error.1 hfd
    · exact .inl ⟨.fetchOutOfBounds, hlen, rfl⟩
    · exact .inl ⟨.decodeError, ⟨w, hw, h5⟩, by simp [State.recordFor, hw, opcode_eq_ofNat]⟩
  · have hi : s.fetches i := fetchDecode_ok.1 hfd
    have hlt : s.ip < s.prog.length := hi.elim fun _ hw => lt_length_of_fetch hw.1
    cases exec_eq_next.1 h with
    | badField hbad => exact .inl ⟨.registerOutOfRange, ⟨i, hi, hbad⟩, rfl⟩
    | halt => exact .inr (.inl ⟨hi, rfl⟩)
    | load d v => exact .inr (.inr ⟨_, _, hlt, rfl⟩)
    | swap d src tmp => exact .inr (.inr ⟨_, _, hlt, rfl⟩)
    | mod a b c hb => exact .inr (.inr ⟨_, _, hlt, rfl⟩)
    | modZero a b c hb => exact .inl ⟨.divisionByZero, ⟨a, b, c, hi, congrArg BitVec.toNat hb⟩, rfl⟩
    | bezNotTaken r o hr => exact .inr (.inr ⟨_, _, hlt, rfl⟩)
    | bezTaken r o hr ho => exact .inr (.inr ⟨_, _, by omega, rfl⟩)
    | bezUnderflow r o hr ho => exact .inl ⟨.ipUnderflow, ⟨r, o, hi, congrArg BitVec.toNat hr, ho⟩, rfl⟩

theorem step_keeps_inv (hinv : s.Inv) (h : step s = .next t) : t.Inv := by
  cases hs : s.status with
  | halted => cases (step_of_halted hs).symm.trans h; exact hinv
  | faulted k => cases (step_of_faulted hs).symm.trans h; exact hinv
  | running =>
    have hf : s.fault = none := hinv.no_record fun k hk => by simp [hs] at hk
    obtain ⟨k, hc, rfl⟩ | ⟨hw, rfl⟩ | ⟨rf, ip, hip, rfl⟩ := step_running_cases hs h
    · exact inv_raise hinv.ip_le_length hc
    · exact inv_halted hinv.ip_le_length hf hw
    · exact inv_of_running hip hs hf

theorem newVm_inv (prog : List Word) : (State.newVm prog).Inv := inv_of_running (Nat.zero_le _) rfl rfl

/-- Settles O30: construction and reset start anew, and a step keeps what its state had. -/
theorem everyHostMoveKeepsInvariant : Obligations.EveryHostMoveKeepsInvariant := by
  intro m s t hinv h
  cases m with
  | construct prog => cases h; exact newVm_inv prog
  | step => exact step_keeps_inv hinv h
  | reset => cases h; exact newVm_inv s.prog

/-- Settles O29: `State.reset` is the machine constructed over the empty program. -/
theorem constructedMachineMeetsInvariant : Obligations.ConstructedMachineMeetsInvariant :=
  ⟨newVm_inv, newVm_inv []⟩

/-- Settles O28: both moves lead to `State.newVm`. -/
theorem resetValues : Obligations.ResetValues :=
  ⟨fun _ prog => ⟨_, rfl, newVm_reg prog, rfl, rfl, rfl, rfl⟩,
    fun s => ⟨_, rfl, newVm_reg s.prog, rfl, rfl, rfl, rfl⟩, rfl⟩

/-! ### Values of at most 255 (R24) -/

theorem zext16_toNat_le {v : Nat} (hv : v < 256) : (zext16 v).toNat ≤ 255 := by
  simp only [zext16, BitVec.toNat_ofNat]; omega

theorem setReg_bytesInRegs {r : Reg} {v : Word} (hs : s.bytesInRegs) (hv : v.toNat ≤ 255) :
    (s.setReg r v).bytesInRegs := by
  intro q
  by_cases hq : q = r
  · rw [hq, setReg_reg_same]; exact hv
  · rw [setReg_reg_other hq]; exact hs q

/-- A Load of a byte, a Swap of old values and a remainder, which is at most its dividend, make no value above 255. -/
theorem Effect.keeps_bytesInRegs (h : Effect s i t) (hwf : i.wellFormed = true) (hs : s.bytesInRegs) :
    t.bytesInRegs := by
  cases h with
  | load d v =>
    obtain ⟨-, hv⟩ := (wellFormed_load _ _).1 hwf
    exact setReg_bytesInRegs (r := d) hs (zext16_toNat_le hv)
  | swap d src tmp =>
    intro q
    rw [reg_eq_get, swapRegs_get]
    split_ifs <;> exact hs _
  | mod a b c hb =>
    have hle : (s.reg a % s.reg b).toNat ≤ (s.reg a).toNat := by
      rw [BitVec.toNat_umod]; exact Nat.mod_le _ _
    exact setReg_bytesInRegs (r := c) hs (hle.trans (hs a))
  | _ => exact hs

/-- Settles O31: a step runs a decoded instruction, whose immediate fits a byte. -/
theorem noStepMakesValueAboveByte : Obligations.NoStepMakesValueAboveByte := by
  refine ⟨fun s t hs h => ?_, fun prog r => by simp⟩
  obtain rfl | ⟨k, op, rfl⟩ | ⟨i, ⟨w, -, hd⟩, hi⟩ := step_next_cases h
  · exact hs
  · exact hs
  · exact (exec_eq_next.1 hi).keeps_bytesInRegs (decode_wellFormed hd) hs

/-! ### What an instruction changes and what it reads (R23) -/

/-- A register outside the `writes` row keeps its value. -/
theorem Effect.reg_of_not_mem_writes (h : Effect s i t) {r : Reg} (hr : r.index ∉ i.writes) : t.reg r = s.reg r := by
  cases h with
  | load d v => exact setReg_reg_other (by simpa [Instr.writes] using hr)
  | swap d src tmp =>
    simp only [Instr.writes, List.mem_cons, index_inj, List.not_mem_nil, or_false, not_or] at hr
    obtain ⟨htmp, hsrc, hd⟩ := hr
    rw [reg_eq_get, swapRegs_get, if_neg hd, if_neg hsrc, if_neg htmp, reg_eq_get]
  | mod a b c hb => exact setReg_reg_other (by simpa [Instr.writes] using hr)
  | _ => rfl

/-- Settles O24: registers by the cases of `Effect`, the rest from the three ways an instruction can end. -/
theorem instructionFrame : Obligations.InstructionFrame := by
  intro i s t h
  refine ⟨fun r => (exec_eq_next.1 h).reg_of_not_mem_writes, fun a => by rw [exec_prog h], ?_⟩
  obtain ⟨k, rfl⟩ | ⟨hi, rfl⟩ | ⟨rf, ip, -, rfl⟩ := exec_next_cases h
  · exact ⟨.inr (.inr ⟨k, rfl⟩), .inr ⟨k, rfl⟩⟩
  · exact ⟨.inr (.inl ⟨hi, rfl⟩), .inl rfl⟩
  · exact ⟨.inl rfl, .inl rfl⟩

/-- Two executions leave states the host cannot tell apart and agree on what they wrote: the same ip, status, record and result, and, without a fault, the same
values in the registers written. -/
def SameOutcome (written : List Nat) (s t : State) : Prop :=
  s.ip = t.ip ∧ s.status = t.status ∧ s.fault = t.fault ∧ s.result = t.result ∧
    ((∀ kind, s.status ≠ .faulted kind) → agreeOn written s t)

theorem sameOutcome_raise (written : List Nat) (k : FaultKind) (op : Option Nibble) (hip : s.ip = t.ip) :
    SameOutcome written (s.raise k op) (t.raise k op) :=
  ⟨hip, rfl, by simp [hip], rfl, fun h => absurd rfl (h k)⟩

theorem sameOutcome_running {written : List Nat} (hs : s.status = .running) (ht : t.status = .running)
    (hip : s.ip = t.ip) (hf : s.fault = t.fault) (hregs : agreeOn written s t) : SameOutcome written s t :=
  ⟨hip, hs.trans ht.symm, hf, by simp [State.result, hs, ht], fun _ => hregs⟩

theorem agreeOn_cons {r : Reg} {l : List Nat} : agreeOn (r.index :: l) s t ↔ s.reg r = t.reg r ∧ agreeOn l s t := by
  simp [agreeOn]

/-- A Swap's three registers depend on the old destination and source only, since the temp is written before it is read
(40_dataops.md R62). -/
theorem swapRegs_agree {rf rf' : RegFile} {d src tmp q : Reg} (hd : rf.get d = rf'.get d)
    (hsrc : rf.get src = rf'.get src) (hq : q = tmp ∨ q = src ∨ q = d) :
    (swapRegs rf d src tmp).get q = (swapRegs rf' d src tmp).get q := by
  obtain rfl | rfl | rfl := hq <;> simp [swapRegs_get, hd, hsrc]

/-- In a second state with the same ip, the same record and the same values read, an instruction ends the same way. -/
theorem Effect.sameOutcome {u : State} (h : Effect s i u) (hs : s.status = .running) (ht : t.status = .running)
    (hf : s.fault = t.fault) (hip : s.ip = t.ip) (hr : agreeOn i.reads s t) :
    ∃ v, Effect t i v ∧ SameOutcome i.writes u v := by
  cases h with
  | badField hbad => exact ⟨_, .badField hbad, sameOutcome_raise _ _ _ hip⟩
  | halt =>
    have h0 : s.reg .x0 = t.reg .x0 := hr .x0 (by decide)
    exact ⟨_, .halt, hip, rfl, hf, congrArg some h0, fun _ _ hq => nomatch hq⟩
  | load d v =>
    refine ⟨_, .load d v, sameOutcome_running hs ht (congrArg (· + 1) hip) hf ?_⟩
    exact agreeOn_cons.2 ⟨by simp, fun _ hq => nomatch hq⟩
  | swap d src tmp =>
    obtain ⟨hd, hr'⟩ := agreeOn_cons.1 hr
    obtain ⟨hsrc, -⟩ := agreeOn_cons.1 hr'
    refine ⟨_, .swap d src tmp, sameOutcome_running hs ht (congrArg (· + 1) hip) hf fun q hq => ?_⟩
    exact swapRegs_agree hd hsrc (by simpa [Instr.writes] using hq)
  | mod a b c hb =>
    obtain ⟨ha, hr'⟩ := agreeOn_cons.1 hr
    obtain ⟨hb', -⟩ := agreeOn_cons.1 hr'
    refine ⟨_, .mod a b c (hb' ▸ hb), sameOutcome_running hs ht (congrArg (· + 1) hip) hf ?_⟩
    exact agreeOn_cons.2 ⟨by simp [ha, hb'], fun _ hq => nomatch hq⟩
  | modZero a b c hb =>
    obtain ⟨-, hr'⟩ := agreeOn_cons.1 hr
    obtain ⟨hb', -⟩ := agreeOn_cons.1 hr'
    exact ⟨_, .modZero a b c (hb' ▸ hb), sameOutcome_raise _ _ _ hip⟩
  | bezNotTaken r o hz =>
    obtain ⟨hr', -⟩ := agreeOn_cons.1 hr
    exact ⟨_, .bezNotTaken r o (hr' ▸ hz),
      sameOutcome_running hs ht (congrArg (· + 1) hip) hf fun _ hq => nomatch hq⟩
  | bezTaken r o hz ho =>
    obtain ⟨hr', -⟩ := agreeOn_cons.1 hr
    exact ⟨_, .bezTaken r o (hr' ▸ hz) (hip ▸ ho),
      sameOutcome_running hs ht (congrArg (· - o + 1) hip) hf fun _ hq => nomatch hq⟩
  | bezUnderflow r o hz ho =>
    obtain ⟨hr', -⟩ := agreeOn_cons.1 hr
    exact ⟨_, .bezUnderflow r o (hr' ▸ hz) (hip ▸ ho), sameOutcome_raise _ _ _ hip⟩

/-- Settles O25: the second execution has the outcome `Effect.sameOutcome` gives it, since `exec` is a function. -/
theorem onlyReadRegistersMatter : Obligations.OnlyReadRegistersMatter := by
  intro i s t s' t' hs ht hf hip hr hs' ht'
  obtain ⟨v, hv, hsame⟩ := (exec_eq_next.1 hs').sameOutcome hs ht hf hip hr
  obtain rfl : v = t' := Host.Outcome.next.inj (hv.exec_eq.symm.trans ht')
  exact hsame

/-! ### What a cycle reads of the program (R29; 20_memory.md R45) -/

/-- An instruction does not look at the program. -/
theorem Effect.withProg (h : Effect s i t) (prog : List Word) :
    Effect { s with prog := prog } i { t with prog := prog } := by
  cases h with
  | badField hbad => exact .badField hbad
  | halt => exact .halt
  | load d v => exact .load d v
  | swap d src tmp => exact .swap d src tmp
  | mod a b c hb => exact .mod a b c hb
  | modZero a b c hb => exact .modZero a b c hb
  | bezNotTaken r o hr => exact .bezNotTaken r o hr
  | bezTaken r o hr ho => exact .bezTaken r o hr ho
  | bezUnderflow r o hr ho => exact .bezUnderflow r o hr ho

theorem fetchDecode_withProg {prog : List Word} (h : prog[s.ip]? = s.prog[s.ip]?) :
    fetchDecode { s with prog := prog } = fetchDecode s := by
  simp [fetchDecode, fetch, h]

/-- Settles O26: fetch and decode see the word at ip only, and executing sees no word. -/
theorem stepReadsOnlyWordAtIp : Obligations.StepReadsOnlyWordAtIp := by
  intro s t prog hw h
  cases hs : s.status with
  | halted => cases (step_of_halted hs).symm.trans h; simp [hs]
  | faulted k => cases (step_of_faulted hs).symm.trans h; simp [hs]
  | running =>
    rw [step_of_running hs] at h
    rw [← hs, step_of_running (s := { s with prog := prog }) hs, fetchDecode_withProg hw]
    rcases hfd : fetchDecode s with ⟨k, op⟩ | i <;> rw [hfd] at h
    · cases h; rfl
    · exact ((exec_eq_next.1 h).withProg prog).exec_eq

/-! ### The blocks against the cycle (R32; 41_control.md R80, R82) -/

section Blocks

variable {ipW : Nat} {h : BlockState ipW}

/-- What one evaluation of the blocks leaves, from what the blocks of cycle step 3 hand on. `BlockState.cycle_of_ok` ties it to
`BlockState.cycle`. -/
def BlockState.commit (h : BlockState ipW) : Except FaultKind BlockResult → BlockState ipW
  | .error kind => h.fail kind none
  | .ok out =>
    { h with
      regs := out.regs
      ip := (controlMux h.ip out.sig out.take out.offset).1
      status := (controlMux h.ip out.sig out.take out.offset).2 }

theorem BlockState.cycle_of_ok (hs : h.status = .running) (hi : fetchDecode h.toState = .ok i) :
    h.cycle = h.commit (blockExecute h.regs h.ip.toNat i) := by
  obtain ⟨w, hw, hd⟩ := fetchDecode_ok.1 hi
  have hw : fetch h.prog h.ip.toNat = some w := hw
  cases hx : blockExecute h.regs h.ip.toNat i <;> simp [BlockState.cycle, BlockState.commit, hs, hw, hd, hx]

theorem BlockState.cycle_of_error {k : FaultKind} {op : Option Nibble} (hs : h.status = .running)
    (he : fetchDecode h.toState = .error (k, op)) : h.cycle = h.fail k op := by
  obtain ⟨hlen, rfl, rfl⟩ | ⟨w, hw, h5, rfl, rfl⟩ := fetchDecode_error.1 he
  · have hw : fetch h.prog h.ip.toNat = none := fetch_eq_none.2 hlen
    simp [BlockState.cycle, hs, hw]
  · have hw : fetch h.prog h.ip.toNat = some w := hw
    simp [BlockState.cycle, hs, hw, decode_badOpcode.2 ⟨h5, rfl⟩]

theorem BlockState.cycle_of_halted (hs : h.status = .halted) : h.cycle = h := by simp [BlockState.cycle, hs]

theorem BlockState.cycle_of_faulted {k : FaultKind} (hs : h.status = .faulted k) : h.cycle = h := by
  simp [BlockState.cycle, hs]

/-! The three accesses of a Swap and the four of a Mod fail together with the cycle's one check of all fields, whichever access
meets the bad field first. -/

theorem swapPorts_badField {d src tmp : Nat} (hbad : 2 < d ∨ 2 < src ∨ 2 < tmp) (rf : RegFile) :
    swapPorts rf d src tmp = .error .registerOutOfRange := by
  unfold swapPorts
  by_cases hsrc : 2 < src
  · rw [read_above hsrc]; rfl
  obtain ⟨src, rfl⟩ := exists_index_eq hsrc
  by_cases htmp : 2 < tmp
  · simp [bind, Except.bind, write_above htmp]
  obtain ⟨tmp, rfl⟩ := exists_index_eq htmp
  have hd : 2 < d := by omega
  simp [bind, Except.bind, read_above hd]

theorem modPorts_badField {a b c : Nat} (hbad : 2 < a ∨ 2 < b ∨ 2 < c) (rf : RegFile) :
    modPorts rf a b c = .error .registerOutOfRange := by
  unfold modPorts
  by_cases ha : 2 < a
  · rw [read_above ha]; rfl
  obtain ⟨a, rfl⟩ := exists_index_eq ha
  by_cases hb : 2 < b
  · rw [read_above hb, read_index]; rfl
  obtain ⟨b, rfl⟩ := exists_index_eq hb
  have hc : 2 < c := by omega
  rw [read_index, read_index, read_above hc]; rfl

/-- A field above 2 fails in the blocks as it does in the cycle. -/
theorem blockExecute_badField (hbad : ∃ f ∈ i.regFields, 2 < f) (rf : RegFile) (ip : Nat) :
    blockExecute rf ip i = .error .registerOutOfRange := by
  cases i with
  | halt => exact absurd hbad badField_halt
  | load d v => rw [blockExecute, write_above (badField_load.1 hbad)]; rfl
  | swap d src tmp => rw [blockExecute, swapPorts_badField (badField_swap.1 hbad)]; rfl
  | mod a b c => rw [blockExecute, modPorts_badField (badField_mod.1 hbad)]; rfl
  | bez r o => rw [blockExecute, bezDecision, read_above (badField_bez.1 hbad)]; rfl

theorem swapPorts_index (rf : RegFile) (d src tmp : Reg) :
    swapPorts rf d.index src.index tmp.index = .ok (swapRegs rf d src tmp) := by
  simp [swapPorts, swapRegs, bind, Except.bind]

theorem modPorts_index (rf : RegFile) (a b c : Reg) :
    modPorts rf a.index b.index c.index = (remUnit (rf.get a) (rf.get b)).map (rf.set c) := by
  cases hv : remUnit (rf.get a) (rf.get b) <;> simp [modPorts, bind, Except.bind, Except.map, hv]

theorem bezDecision_index (rf : RegFile) (ip : Nat) (r : Reg) (o : Nat) :
    bezDecision rf ip r.index o =
      if branchTaken (rf.get r) && branchUnderflows ip o then .error .ipUnderflow else .ok (branchTaken (rf.get r)) := by
  simp [bezDecision, bind, Except.bind]

/-! The multiplexer in `ipW`-bit arithmetic: the next ip neither wraps above the register nor below 0. -/

theorem toNat_add_one {x : BitVec ipW} (hx : x.toNat + 1 < 2 ^ ipW) : (x + 1#ipW).toNat = x.toNat + 1 := by
  have h1 : (1#ipW).toNat = 1 := Nat.mod_eq_of_lt (by omega)
  rw [BitVec.toNat_add_of_lt (by rwa [h1]), h1]

theorem toNat_sub_ofNat {x : BitVec ipW} {o : Nat} (ho : o ≤ x.toNat) :
    (x - BitVec.ofNat ipW o).toNat = x.toNat - o := by
  have h1 : (BitVec.ofNat ipW o).toNat = o := Nat.mod_eq_of_lt (ho.trans_lt x.isLt)
  rw [BitVec.toNat_sub_of_le (by rwa [BitVec.le_def, h1]), h1]

theorem commit_advance (hs : h.status = .running) (hlt : h.ip.toNat + 1 < 2 ^ ipW) (rf : RegFile) (o : Nat) :
    (h.commit (.ok ⟨rf, .proceed, false, o⟩)).toState = { h.toState with regs := rf, ip := h.ip.toNat + 1 } := by
  have hip : (h.ip + 1#ipW).toNat = h.ip.toNat + 1 := toNat_add_one hlt
  simp [BlockState.commit, BlockState.toState, controlMux, hip, hs]

theorem commit_branch (hs : h.status = .running) (hlt : h.ip.toNat + 1 < 2 ^ ipW) (rf : RegFile) {o : Nat}
    (ho : o ≤ h.ip.toNat) :
    (h.commit (.ok ⟨rf, .proceed, true, o⟩)).toState = { h.toState with regs := rf, ip := h.ip.toNat - o + 1 } := by
  have hip : (h.ip - BitVec.ofNat ipW o + 1#ipW).toNat = h.ip.toNat - o + 1 := by
    rw [toNat_add_one (by rw [toNat_sub_ofNat ho]; omega), toNat_sub_ofNat ho]
  simp [BlockState.commit, BlockState.toState, controlMux, hip, hs]

theorem commit_raise {k : FaultKind} : (h.commit (.error k)).toState = h.toState.raise k none := rfl

/-- The blocks and the multiplexer do to the state they stand for what the instruction does. -/
theorem Effect.commit_blockExecute (he : Effect h.toState i t) (hs : h.status = .running)
    (hlt : h.ip.toNat + 1 < 2 ^ ipW) : (h.commit (blockExecute h.regs h.ip.toNat i)).toState = t := by
  cases he with
  | badField hbad => rw [blockExecute_badField hbad]; rfl
  | halt => rfl
  | load d v => rw [blockExecute, write_index]; exact commit_advance hs hlt _ _
  | swap d src tmp => rw [blockExecute, swapPorts_index]; exact commit_advance hs hlt _ _
  | mod a b c hb =>
    have hb : h.regs.get b ≠ 0#16 := hb
    rw [blockExecute, modPorts_index, remUnit_of_ne hb]; exact commit_advance hs hlt _ _
  | modZero a b c hb =>
    have hb : h.regs.get b = 0#16 := hb
    rw [blockExecute, modPorts_index, hb, remUnit_zero]; rfl
  | bezNotTaken r o hr =>
    have htake : branchTaken (h.regs.get r) = false := decide_eq_false hr
    rw [blockExecute, bezDecision_index, htake]; exact commit_advance hs hlt _ _
  | bezTaken r o hr ho =>
    have htake : branchTaken (h.regs.get r) = true := decide_eq_true hr
    have hunder : branchUnderflows h.ip.toNat o = false := decide_eq_false (Nat.not_lt.2 ho)
    rw [blockExecute, bezDecision_index, htake, hunder]; exact commit_branch hs hlt _ ho
  | bezUnderflow r o hr ho =>
    have htake : branchTaken (h.regs.get r) = true := decide_eq_true hr
    have hunder : branchUnderflows h.ip.toNat o = true := decide_eq_true ho
    rw [blockExecute, bezDecision_index, htake, hunder]; rfl

end Blocks

/-- Settles O33: a fetched word stands below `PROG_LEN`, so the next ip fits the register. -/
theorem blocksRefineCycle : Obligations.BlocksRefineCycle := by
  intro ipW h hfits _
  cases hs : h.status with
  | halted => rw [BlockState.cycle_of_halted hs]; exact step_of_halted hs
  | faulted k => rw [BlockState.cycle_of_faulted hs]; exact step_of_faulted hs
  | running =>
    rw [step_of_running (s := h.toState) hs]
    rcases hfd : fetchDecode h.toState with ⟨k, op⟩ | i
    · rw [BlockState.cycle_of_error hs hfd]; rfl
    · have hin : h.ip.toNat < h.prog.length := (fetchDecode_ok.1 hfd).elim fun _ hw => lt_length_of_fetch hw.1
      have hfits : h.prog.length ≤ 2 ^ ipW - 1 := hfits
      obtain ⟨t, ht⟩ := exists_effect i h.toState
      rw [BlockState.cycle_of_ok hs hfd, ht.commit_blockExecute hs (by omega)]
      exact ht.exec_eq

end Sys2Proof.Machine

/-! PROOFS. The statements of 20_memory.md: no run and no reset writes the program, and what a fetch outside it or at a word
that is no instruction leaves (R41, R42). -/

namespace Sys2Proof.Machine

/-- What fetch or decode raises is the whole step of a running machine (cycle steps 1 and 2, 41_control.md R80). -/
theorem step_of_fetchDecode_error {s : State} {k : FaultKind} {op : Option Nibble} (hs : s.status = .running)
    (hfd : fetchDecode s = .error (k, op)) : step s = .next (s.raise k op) := by
  rw [step_of_running hs, hfd]

/-- Settles O7: fetch and decode raise their fault, and raising it leaves the stated state. -/
theorem fetchAndDecodeFaults : Obligations.FetchAndDecodeFaults := by
  intro s hs
  constructor
  · intro hlen
    exact step_of_fetchDecode_error hs (fetchDecode_error.2 (.inl ⟨hlen, rfl, rfl⟩))
  · intro w hw hbad
    have h5 : 5 ≤ w.toNat / 4096 := by omega
    rw [← opcode_eq_ofNat]
    exact step_of_fetchDecode_error hs (fetchDecode_error.2 (.inr ⟨w, hw, h5, rfl, rfl⟩))

/-- Settles O27: every step keeps the program, reset constructs over the same one, and a construction has its own. -/
theorem programIsNeverWritten : Obligations.ProgramIsNeverWritten := by
  refine ⟨fun n s t h => reaches_prog h, fun m s t h hne => ?_⟩
  cases m with
  | construct prog => cases h; exact ⟨prog, rfl, rfl⟩
  | step => exact absurd (step_prog h) hne
  | reset => cases h; exact absurd rfl hne

end Sys2Proof.Machine

/-! PROOFS. The statements of 30_encoding.md: the fields and the opcode map, the round trip between words and instructions in
both directions, and a register field above 2, which decodes and faults only when it executes (R50 to R56). -/

namespace Sys2Proof

variable {w : Word} {i : Instr}

/-- The operands of the instruction are the fields of the word that its format names (30_encoding.md R50, R53): `f1` is
`w[11:8]`, `f2` is `w[7:4]`, `f3` is `w[3:0]`, `imm8` is `w[7:0]`. `decode_eq_instr` ties it to the decoder. -/
def Instr.operandsIn (w : Word) : Instr → Prop
  | .halt => True
  | .load d v => d = field w 8 4 ∧ v = field w 0 8
  | .swap d s t => d = field w 8 4 ∧ s = field w 4 4 ∧ t = field w 0 4
  | .mod a b c => a = field w 8 4 ∧ b = field w 4 4 ∧ c = field w 0 4
  | .bez r o => r = field w 8 4 ∧ o = field w 0 8

/-- The decoder answers an instruction exactly where the word has its opcode number and its operands. -/
theorem decode_eq_instr : decode w = .instr i ↔ w.toNat / 4096 = i.opcodeNumber ∧ i.operandsIn w := by
  constructor
  · intro h
    rw [decode_eq] at h
    split at h <;> cases h
    all_goals exact ⟨‹_›, by simp [Instr.operandsIn]⟩
  · rintro ⟨hop, hargs⟩
    rw [decode_eq, hop]
    cases i with
    | halt => rfl
    | load d v => obtain ⟨rfl, rfl⟩ := hargs; rfl
    | swap d s t => obtain ⟨rfl, rfl, rfl⟩ := hargs; rfl
    | mod a b c => obtain ⟨rfl, rfl, rfl⟩ := hargs; rfl
    | bez r o => obtain ⟨rfl, rfl⟩ := hargs; rfl

/-! ### The round trip (R55, R56) -/

theorem encode_opcode (h : i.wellFormed = true) : (encode i).toNat / 4096 = i.opcodeNumber := by
  rw [← opcode_toNat]
  cases i with
  | halt => exact Laws.EncodeOpcode.halt h
  | load d v => exact Laws.EncodeOpcode.load d v h
  | swap d s t => exact Laws.EncodeOpcode.swap d s t h
  | mod a b c => exact Laws.EncodeOpcode.mod a b c h
  | bez r o => exact Laws.EncodeOpcode.bez r o h

/-- The encoding keeps every operand in its own field, since no field reaches into the next. -/
theorem operandsIn_encode (h : i.wellFormed = true) : i.operandsIn (encode i) := by
  have hw := encode_toNat h
  cases i with
  | halt => trivial
  | load d v => rw [wellFormed_load] at h; simp only [Instr.operandsIn, field_eq, hw]; omega
  | swap d s t => rw [wellFormed_swap] at h; simp only [Instr.operandsIn, field_eq, hw]; omega
  | mod a b c => rw [wellFormed_mod] at h; simp only [Instr.operandsIn, field_eq, hw]; omega
  | bez r o => rw [wellFormed_bez] at h; simp only [Instr.operandsIn, field_eq, hw]; omega

/-- Settles O3: the encoded word has the instruction's opcode number and operands. -/
theorem decodeOfEncodeIsIdentity : Obligations.DecodeOfEncodeIsIdentity := fun _ h =>
  decode_eq_instr.2 ⟨encode_opcode h, operandsIn_encode h⟩

/-- Opcode and fields together are the whole word, except for Halt, which ignores its low 12 bits (30_encoding.md R55). -/
theorem encode_eq_of_decode (h : decode w = .instr i) (hi : i ≠ .halt) : encode i = w := by
  have hw := encode_toNat (decode_wellFormed h)
  obtain ⟨hop, hargs⟩ := decode_eq_instr.1 h
  apply BitVec.eq_of_toNat_eq
  cases i with
  | halt => exact absurd rfl hi
  | load d v => simp only [Instr.opcodeNumber, Instr.operandsIn, field_eq] at hop hargs hw; omega
  | swap d s t => simp only [Instr.opcodeNumber, Instr.operandsIn, field_eq] at hop hargs hw; omega
  | mod a b c => simp only [Instr.opcodeNumber, Instr.operandsIn, field_eq] at hop hargs hw; omega
  | bez r o => simp only [Instr.opcodeNumber, Instr.operandsIn, field_eq] at hop hargs hw; omega

/-- Halt is what the words below 0x1000 decode to, and no other word (30_encoding.md R54, R55). -/
theorem decode_eq_halt : decode w = .instr .halt ↔ w.toNat < 0x1000 := by
  rw [decode_eq_instr]; simp only [Instr.opcodeNumber, Instr.operandsIn, and_true]; omega

/-- Settles O4: opcode 0 is Halt, and every other instruction has its whole word. -/
theorem encodeOfDecodeIsIdentity : Obligations.EncodeOfDecodeIsIdentity := by
  intro w i h
  refine ⟨decode_wellFormed h, fun hge => encode_eq_of_decode h ?_, fun hlt => ?_⟩
  · rintro rfl
    exact absurd (decode_eq_halt.1 h) (Nat.not_lt.2 hge)
  · obtain rfl : i = .halt := Decoded.instr.inj (h.symm.trans (decode_eq_halt.2 hlt))
    exact ⟨rfl, rfl⟩

/-! ### The opcode map (R54) and the fields (R50) -/

/-- Settles O1: each row's range of words is one opcode number, and its operands are the fields as quotients and remainders. -/
theorem decodeFollowsOpcodeMap : Obligations.DecodeFollowsOpcodeMap := by
  rintro w _ rfl
  refine ⟨fun hi => ?_, fun lo hi => ?_, fun lo hi => ?_, fun lo hi => ?_, fun lo hi => ?_, fun lo => ?_⟩
  · exact decode_eq_halt.2 (by omega)
  · exact decode_eq_instr.2 ⟨(by omega : w.toNat / 4096 = 1), by simp [Instr.operandsIn, field_eq]⟩
  · exact decode_eq_instr.2 ⟨(by omega : w.toNat / 4096 = 2), by simp [Instr.operandsIn, field_eq]⟩
  · exact decode_eq_instr.2 ⟨(by omega : w.toNat / 4096 = 3), by simp [Instr.operandsIn, field_eq]⟩
  · exact decode_eq_instr.2 ⟨(by omega : w.toNat / 4096 = 4), by simp [Instr.operandsIn, field_eq]⟩
  · exact decode_badOpcode.2 ⟨by omega, (opcode_eq_ofNat w).symm⟩

/-- A field is the word shifted down to its lowest bit and masked to its length, as the source writes it. -/
theorem field_eq_shift_mask (w : Word) (lo : Nat) {len : Nat} (hlen : len ≤ 16) :
    field w lo len = ((w >>> lo) &&& BitVec.ofNat 16 (2 ^ len - 1)).toNat := by
  have hmask : 2 ^ len - 1 < 2 ^ 16 := by
    have := Nat.pow_le_pow_right two_pos hlen
    have := Nat.two_pow_pos len
    omega
  rw [field_eq, BitVec.toNat_and, BitVec.toNat_ofNat, Nat.mod_eq_of_lt hmask, Nat.and_two_pow_sub_one_eq_mod,
    BitVec.toNat_ushiftRight, Nat.shiftRight_eq_div_pow]

theorem opcode_eq_shift (w : Word) : (opcode w).toNat = (w >>> 12).toNat := by
  rw [opcode_toNat, BitVec.toNat_ushiftRight, Nat.shiftRight_eq_div_pow]

/-- The immediate overlaps the second and the third register field (30_encoding.md R50). -/
theorem imm8_eq_f2_f3 (w : Word) : field w 0 8 = field w 4 4 * 16 + field w 0 4 := by
  simp only [field_eq]; omega

/-- Settles O2: the fields by their shifts and masks, the operands by the decoder's inversion. -/
theorem fieldsAreShiftsAndMasks : Obligations.FieldsAreShiftsAndMasks := fun w =>
  ⟨opcode_eq_shift w, field_eq_shift_mask w 8 (by decide), field_eq_shift_mask w 4 (by decide),
    field_eq_shift_mask w 0 (by decide), field_eq_shift_mask w 0 (by decide), imm8_eq_f2_f3 w,
    fun _ _ h => (decode_eq_instr.1 h).2, fun _ _ _ h => (decode_eq_instr.1 h).2,
    fun _ _ _ h => (decode_eq_instr.1 h).2, fun _ _ h => (decode_eq_instr.1 h).2⟩

/-- Settles O5: the decoder evaluated at the six words. -/
theorem specWordsDecode : Obligations.SpecWordsDecode := by
  unfold Obligations.SpecWordsDecode
  decide

end Sys2Proof

namespace Sys2Proof.Machine

/-- A running machine's step executes the instruction its word at ip decodes to (41_control.md R80). -/
theorem step_of_decode {s : State} {w : Word} {i : Instr} (hs : s.status = .running) (hw : s.prog[s.ip]? = some w)
    (hd : decode w = .instr i) : step s = exec i s := by
  rw [step_of_running hs, fetchDecode_ok.2 ⟨w, hw, hd⟩]

/-- Settles O21: the word is the instruction's own encoding, and executing it raises the fault. -/
theorem badRegisterFieldDecodesThenFaults : Obligations.BadRegisterFieldDecodesThenFaults := by
  intro i hwf hbad
  have hd : decode (encode i) = .instr i := decodeOfEncodeIsIdentity i hwf
  exact ⟨encode i, hd, fun s hs hw => ⟨_, (step_of_decode hs hw hd).trans (exec_badField hbad s), raise_status s _ _⟩⟩

end Sys2Proof.Machine

/-! PROOFS. The statements of 40_dataops.md: what Load, Swap and Mod leave, the fault of a zero divisor, and the remainder
unit (R60 to R64). -/

namespace Sys2Proof.Machine

/-! ### Swap in its aliasing cases (R62) -/

/-- Settles O15: each row of R62's table is the case of `swapRegs_get` that its equalities select. -/
theorem swapInEveryAliasingCase : Obligations.SwapInEveryAliasingCase := by
  intro s d src tmp
  refine ⟨_, exec_swap s d src tmp, ?_, ?_, ?_, ?_, ?_, ?_, rfl, rfl, rfl, fun _ => rfl⟩ <;>
    simp only [reg_eq_get, swapRegs_get]
  · intro hds htd hts
    simp [hds.symm, htd, hts]
  · rintro rfl htd
    simp [htd]
  · rintro rfl hst
    simp [hst, hst.symm]
  · rintro rfl hdt
    simp [hdt.symm]
  · rintro rfl rfl
    simp
  · intro r hrd hrs hrt
    simp [hrd, hrs, hrt]

/-! ### The natural-number remainder (R64; 00_scope.md R8) -/

/-- The remainder of two words is the one below the divisor that leaves a multiple of the divisor. -/
theorem umod_isNaturalRemainder (a : Word) {b : Word} (hb : b ≠ 0#16) :
    (a % b).toNat < b.toNat ∧ ∃ q, a.toNat = q * b.toNat + (a % b).toNat := by
  have hpos : 0 < b.toNat := Nat.pos_of_ne_zero fun h => hb (BitVec.eq_of_toNat_eq h)
  rw [BitVec.toNat_umod]
  exact ⟨Nat.mod_lt _ hpos, a.toNat / b.toNat, (Nat.div_add_mod' _ _).symm⟩

/-- Settles O22: with a divisor that is not 0 the unit answers the remainder of the two words. -/
theorem remainderUnitIsNaturalRemainder : Obligations.RemainderUnitIsNaturalRemainder := fun a b hb =>
  ⟨a % b, remUnit_of_ne hb, umod_isNaturalRemainder a hb⟩

/-! ### Load and Mod (R61, R63) -/

theorem zext16_toNat {v : Nat} (hv : v < 256) : (zext16 v).toNat = v :=
  Nat.mod_eq_of_lt (hv.trans (by decide))

/-- Settles O14: the one write is the zero-extended immediate, which a word holds unchanged. -/
theorem loadWritesImmediate : Obligations.LoadWritesImmediate := by
  intro s d v hv
  refine ⟨_, exec_load s d v, ?_, fun r hr => ?_, rfl, rfl, rfl, fun _ => rfl⟩
  · rw [setIp_reg, setReg_reg_same, zext16_toNat hv]
  · rw [setIp_reg, setReg_reg_other hr]

/-- Settles O16: the one write is the remainder of the old values. -/
theorem modWritesRemainder : Obligations.ModWritesRemainder := by
  intro s a b c hb
  obtain ⟨hlt, hq⟩ := umod_isNaturalRemainder (s.reg a) hb
  refine ⟨_, exec_mod_of_ne a c hb, ?_, ?_, fun r hr => ?_, rfl, rfl, rfl, fun _ => rfl⟩
  · rwa [setIp_reg, setReg_reg_same]
  · rwa [setIp_reg, setReg_reg_same]
  · rw [setIp_reg, setReg_reg_other hr]

/-- Settles O17, with the fault written out as the state `State.raise` leaves. -/
theorem modByZeroFaults : Obligations.ModByZeroFaults := fun _ a _ c hb => exec_mod_zero a c hb

end Sys2Proof.Machine

/-! PROOFS. The statements of 41_control.md: the cycle and the control multiplexer, Halt and BEZ, and how a run ends or goes on
for ever (R80 to R88). -/

namespace Sys2Proof.Machine

variable {s t : State} {i : Instr} {n : Nat}

/-! ### The end of a run (R87, R88) -/

/-- A state that a step leaves as it is stays for ever. -/
theorem reaches_self (h : step s = .next s) : reaches n s s := by
  induction n with
  | zero => exact reaches_zero.2 rfl
  | succ n ih => exact reaches_succ.2 ⟨s, h, ih⟩

theorem reaches_unique {u : State} (ht : reaches n s t) (hu : reaches n s u) : t = u :=
  Host.Outcome.next.inj (ht.symm.trans hu)

/-- A finished machine's step does nothing (10_state.md R31). -/
theorem step_of_not_running (h : s.status ≠ .running) : step s = .next s := by
  cases hs : s.status with
  | running => exact absurd hs h
  | halted => exact step_of_halted hs
  | faulted k => exact step_of_faulted hs

/-- A run that is still going was going from its start. -/
theorem running_of_reaches (h : reaches n s t) (ht : t.status = .running) : s.status = .running := by
  by_contra hs
  obtain rfl : t = s := reaches_unique h (reaches_self (step_of_not_running hs))
  exact hs ht

theorem runFor_of_halted (h : s.status = .halted) : runFor n s = some (.ok (s.reg .x0)) := by
  unfold runFor; rw [h]

theorem runFor_of_faulted {k : FaultKind} (h : s.status = .faulted k) : runFor n s = some (.error k) := by
  unfold runFor; rw [h]

theorem runFor_zero_of_running (h : s.status = .running) : runFor 0 s = none := by
  unfold runFor; rw [h]

/-- One cycle of the host's ceiling is spent on one step, which a finished machine does not notice. -/
theorem runFor_succ (h : step s = .next t) : runFor (n + 1) s = runFor n t := by
  cases hs : s.status with
  | running => rw [runFor, hs]; simp only [h]
  | halted =>
    obtain rfl : s = t := Host.Outcome.next.inj ((step_of_halted hs).symm.trans h)
    rw [runFor_of_halted hs, runFor_of_halted hs]
  | faulted k =>
    obtain rfl : s = t := Host.Outcome.next.inj ((step_of_faulted hs).symm.trans h)
    rw [runFor_of_faulted hs, runFor_of_faulted hs]

/-- The host's run under a ceiling of `n` sees the state `n` steps lead to. -/
theorem runFor_of_reaches (h : reaches n s t) : runFor n s = runFor 0 t := by
  induction n generalizing s with
  | zero => rw [reaches_zero.1 h]
  | succ n ih =>
    obtain ⟨u, hu, hrest⟩ := reaches_succ.1 h
    rw [runFor_succ hu, ih hrest]

theorem result_of_halted (h : s.status = .halted) : s.result = some (s.reg .x0) := by
  rw [State.result, h]

theorem result_of_faulted {k : FaultKind} (h : s.status = .faulted k) : s.result = none := by
  rw [State.result, h]

/-- Settles O9: the host's run reads off the state the steps lead to, which stays if it is finished. -/
theorem runEndsAtFirstFinishedState : Obligations.RunEndsAtFirstFinishedState := by
  intro n s t h
  rw [runFor_of_reaches h]
  refine ⟨fun ht => ?_, fun k ht => ?_, runFor_zero_of_running⟩
  · exact ⟨runFor_of_halted ht, result_of_halted ht, fun _ => reaches_self (step_of_halted ht)⟩
  · exact ⟨runFor_of_faulted ht, result_of_faulted ht, fun _ => reaches_self (step_of_faulted ht)⟩

/-! ### The cycle and the control multiplexer (R80 to R82) -/

/-- Settles O6, by the step of a running machine at a word that decodes. -/
theorem stepRunsDecodedInstruction : Obligations.StepRunsDecodedInstruction := fun _ _ _ => step_of_decode

theorem step_of_fetches (hs : s.status = .running) (hi : s.fetches i) : step s = exec i s := by
  obtain ⟨w, hw, hd⟩ := hi
  exact step_of_decode hs hw hd

/-- The ip of a cycle that goes on after `i` (41_control.md R82, R83): none after Halt, back by the offset and one on after a
taken BEZ, one on otherwise. `Effect.goesOnTo` ties it to the execution. -/
def State.goesOnTo (s : State) (ip : Nat) : Instr → Prop
  | .halt => False
  | .bez r o => ∃ rr : Reg, rr.index = r ∧
      (s.reg rr = 0#16 → o ≤ s.ip ∧ ip = s.ip - o + 1) ∧ (s.reg rr ≠ 0#16 → ip = s.ip + 1)
  | .load _ _ | .swap _ _ _ | .mod _ _ _ => ip = s.ip + 1

theorem Effect.goesOnTo (h : Effect s i t) (ht : t.status = .running) : s.goesOnTo t.ip i := by
  cases h with
  | badField hbad => exact nomatch ht
  | halt => exact nomatch ht
  | load d v => rfl
  | swap d src tmp => rfl
  | mod a b c hb => rfl
  | modZero a b c hb => exact nomatch ht
  | bezNotTaken r o hr => exact ⟨r, rfl, fun hz => absurd hz hr, fun _ => rfl⟩
  | bezTaken r o hr ho => exact ⟨r, rfl, fun _ => ⟨ho, rfl⟩, fun hz => absurd hr hz⟩
  | bezUnderflow r o hr ho => exact nomatch ht

/-- A cycle that starts and ends running has run the instruction at ip, and went on to that instruction's next ip. -/
theorem step_goesOnTo (hs : s.status = .running) (h : step s = .next t) (ht : t.status = .running) :
    ∃ i, s.fetches i ∧ s.goesOnTo t.ip i := by
  rw [step_of_running hs] at h
  rcases hfd : fetchDecode s with ⟨k, op⟩ | i <;> rw [hfd] at h
  · cases h
    exact nomatch ht
  · exact ⟨i, fetchDecode_ok.1 hfd, (exec_eq_next.1 h).goesOnTo ht⟩

/-- Without a BEZ at ip a running cycle goes on to the next word (41_control.md R81). -/
theorem step_advances (hs : s.status = .running) (h : step s = .next t) (ht : t.status = .running)
    (hbez : ∀ r o, ¬ s.fetches (.bez r o)) : t.ip = s.ip + 1 := by
  obtain ⟨i, hi, hip⟩ := step_goesOnTo hs h ht
  cases i with
  | halt => exact hip.elim
  | bez r o => exact absurd hi (hbez r o)
  | load d v => exact hip
  | swap d src tmp => exact hip
  | mod a b c => exact hip

theorem step_ip_le (h : step s = .next t) : t.ip ≤ s.ip + 1 := by
  obtain rfl | ⟨k, op, rfl⟩ | ⟨i, -, hi⟩ := step_next_cases h
  · exact Nat.le_succ _
  · exact Nat.le_succ _
  · exact exec_ip_le hi

/-- A step of a running machine that ends it leaves ip, and halts only at a Halt (41_control.md R82, R86). -/
theorem step_finishes (hs : s.status = .running) (h : step s = .next t) (ht : t.status ≠ .running) :
    t.ip = s.ip ∧ (t.status = .halted → s.fetches .halt) := by
  obtain ⟨k, -, rfl⟩ | ⟨hw, rfl⟩ | ⟨rf, ip, -, rfl⟩ := step_running_cases hs h
  · exact ⟨rfl, fun hh => nomatch hh⟩
  · exact ⟨rfl, fun _ => hw⟩
  · exact absurd hs ht

/-- Settles O10: a finishing step leaves ip, and one that goes on follows its instruction. -/
theorem controlMultiplexerRows : Obligations.ControlMultiplexerRows := by
  intro s t hs h
  refine ⟨fun k ht => ?_, fun ht => ?_, fun ht => ?_, step_advances hs h, step_ip_le h⟩
  · exact (step_finishes hs h (by simp [ht])).1
  · obtain ⟨hip, hw⟩ := step_finishes hs h (by simp [ht])
    exact ⟨hip, hw ht⟩
  · obtain ⟨i, hi, hip⟩ := step_goesOnTo hs h ht
    refine ⟨i, hi, ?_, ?_⟩
    · rintro rfl
      exact hip
    · rintro r o rfl
      exact hip

/-! ### Halt (R85, R86) -/

/-- The words a Halt is fetched from (30_encoding.md R55). -/
theorem fetches_halt : s.fetches .halt ↔ ∃ w, s.prog[s.ip]? = some w ∧ w.toNat ≤ 0x0FFF := by
  simp only [State.fetches, fetch, decode_eq_halt, Nat.lt_succ_iff]

/-- Settles O12: a running machine halts by no other step than a Halt's. -/
theorem haltsExactlyAtHaltWords : Obligations.HaltsExactlyAtHaltWords := by
  intro s hs
  rw [← fetches_halt]
  constructor
  · rintro ⟨t, h, ht⟩
    exact (step_finishes hs h (by simp [ht])).2 ht
  · intro hw
    exact ⟨_, (step_of_fetches hs hw).trans (exec_halt s), rfl⟩

/-- Settles O19: the state Halt leaves is a halted one with the registers of the state before. -/
theorem haltStopsWithRegisterZero : Obligations.HaltStopsWithRegisterZero := fun s =>
  ⟨_, exec_halt s, rfl, rfl, fun _ => ⟨reaches_self (step_of_halted rfl), runFor_of_halted rfl⟩⟩

/-! ### BEZ, and programs with and without it (R83, R84, R87) -/

/-- Settles O18, with the fault written out as the state `State.raise` leaves. -/
theorem bezBranchesBackOnZero : Obligations.BezBranchesBackOnZero := fun _ _ o =>
  ⟨exec_bez_notTaken o, exec_bez_taken, exec_bez_underflow⟩

/-- Settles O35: going back by 1 and on by 1 is the state itself. -/
theorem selfBranchNeverEnds : Obligations.SelfBranchNeverEnds := by
  intro s r hs hi hr hip n
  have hback : s.setIp (s.ip - 1 + 1) = s := by rw [Nat.sub_add_cancel hip]; rfl
  have hstep : step s = .next s := by rw [step_of_fetches hs hi, exec_bez_taken hr hip, hback]
  have hn : reaches n s s := reaches_self hstep
  exact ⟨hn, (runFor_of_reaches hn).trans (runFor_zero_of_running hs)⟩

theorem not_fetches_bez (h : branchFree s.prog) (r o : Nat) : ¬ s.fetches (.bez r o) := fun ⟨w, hw, hd⟩ =>
  h w (List.mem_of_getElem? hw) r o hd

/-- Without a BEZ in the program, a run of `n` cycles that is still going is `n` words further. -/
theorem ip_of_reaches_branchFree (hfree : branchFree s.prog) (h : reaches n s t) (ht : t.status = .running) :
    t.ip = s.ip + n := by
  induction n generalizing s with
  | zero => rw [reaches_zero.1 h]; rfl
  | succ n ih =>
    have hs : s.status = .running := running_of_reaches h ht
    obtain ⟨u, hu, hrest⟩ := reaches_succ.1 h
    have hone : u.ip = s.ip + 1 := step_advances hs hu (running_of_reaches hrest ht) (not_fetches_bez hfree)
    have hmore : t.ip = u.ip + n := ih (step_prog hu ▸ hfree) hrest
    omega

/-- Settles O34: a machine still running after one cycle more than words are left would be past the end of the program, where
ip never is. -/
theorem branchFreeProgramEnds : Obligations.BranchFreeProgramEnds := by
  intro s hfree _ hs
  obtain ⟨t, h⟩ := everyRunAnswersNextStates (s.prog.length - s.ip + 1) s
  refine ⟨t, h, fun ht => ?_⟩
  have hpast : t.ip = s.ip + (s.prog.length - s.ip + 1) := ip_of_reaches_branchFree hfree h ht
  have hin : t.ip ≤ t.prog.length :=
    reaches_keeps (P := fun u => u.ip ≤ u.prog.length) step_keeps_ip_le_length hs h
  rw [reaches_prog h] at hin
  omega

end Sys2Proof.Machine

/-! PROOFS. The statements of 60_exceptions.md: a running machine faults exactly on the condition of the kind, and a fault
writes the status and the record alone (R90, R92, R93). -/

namespace Sys2Proof.Machine

variable {s t : State} {k : FaultKind}

/-- A fault has its cause: the condition of its kind held, and the kind's record is all it left besides the status. -/
theorem step_faulted (hs : s.status = .running) (h : step s = .next t) (ht : t.status = .faulted k) :
    s.faultCondition k ∧ t = s.raise k (s.recordFor k).fopcode := by
  obtain ⟨k', hc, rfl⟩ | ⟨-, rfl⟩ | ⟨rf, ip, -, rfl⟩ := step_running_cases hs h
  · obtain rfl : k' = k := RunStatus.faulted.inj ht
    exact ⟨hc, rfl⟩
  · exact nomatch ht
  · exact nomatch hs.symm.trans ht

/-- The condition of a kind is enough for its fault: each condition says that every check of the cycle before the kind's own
passes (R93). -/
theorem step_of_faultCondition (hs : s.status = .running) (hc : s.faultCondition k) :
    step s = .next (s.raise k (s.recordFor k).fopcode) := by
  cases k with
  | fetchOutOfBounds => exact step_of_fetchDecode_error hs (fetchDecode_error.2 (.inl ⟨hc, rfl, rfl⟩))
  | decodeError =>
    obtain ⟨w, hw, h5⟩ := hc
    have hop : (s.recordFor .decodeError).fopcode = some (opcode w) := by simp [State.recordFor, hw, opcode_eq_ofNat]
    exact step_of_fetchDecode_error hs (fetchDecode_error.2 (.inr ⟨w, hw, h5, rfl, hop⟩))
  | registerOutOfRange =>
    obtain ⟨i, hi, hbad⟩ := hc
    exact (step_of_fetches hs hi).trans (exec_badField hbad s)
  | divisionByZero =>
    obtain ⟨a, b, c, hi, hb⟩ := hc
    exact (step_of_fetches hs hi).trans (exec_mod_zero a c (BitVec.eq_of_toNat_eq hb))
  | ipUnderflow =>
    obtain ⟨r, o, hi, hr, ho⟩ := hc
    exact (step_of_fetches hs hi).trans (exec_bez_underflow (BitVec.eq_of_toNat_eq hr) ho)

/-- Settles O11: a fault has its cause, and the cause its fault. -/
theorem faultExactlyOnItsCondition : Obligations.FaultExactlyOnItsCondition := fun _ _ hs =>
  ⟨fun ⟨_, h, ht⟩ => (step_faulted hs h ht).1, fun hc => ⟨_, step_of_faultCondition hs hc, rfl⟩⟩

/-- Settles O13: the state after a fault is the one that raising it leaves. -/
theorem faultChangesOnlyStatusAndRecord : Obligations.FaultChangesOnlyStatusAndRecord := fun _ _ _ hs h ht =>
  (step_faulted hs h ht).2

end Sys2Proof.Machine
